-- ==== Sys2Proof/Word.lean ====
section
/-!
DEFINITION. The word types of PTG-Q15 (spec/00_scope.md R5, 10_state.md R10, 20_memory.md R40, 30_encoding.md
R60, R65) and the plainest readings of them.
-/

namespace Sys2Proof

/-- A host-visible register, a command word (R10, R60: 32 bits). -/
abbrev Word := BitVec 32

/-- One location of table memory (R40: 16 bits). -/
abbrev Cell := BitVec 16

/-- A byte offset in the register window (R65: `OFF`, 8 bits). -/
abbrev Offset := BitVec 8

/-- A host-transaction record (R65: `WE`, `OFF`, `DATA`, 41 bits). -/
abbrev Record := BitVec 41

/-- What the host can put on the interface of an instance: a command word for `CMD` (R60) or a transaction
record (R65). -/
inductive BusWord where
  | cmd32 (w : Word)
  | bus41 (r : Record)
  deriving DecidableEq, Repr

/-- A phase sample, an ephemeral (cosine, sine) pair of integers (00_scope.md section 8). -/
structure Sample where
  cos : Int
  sin : Int
  deriving DecidableEq, Repr

/-- A quantizer function `Quantize(n, N)` (R6, R81): phase numerator, then denominator. Every command tests
`N <= 0` first, so no rule asks for its value there (R9). -/
abbrev Quantizer := Int → Int → Sample

end Sys2Proof
end

