-- ==== Sys2Proof/Config.lean ====
section
/-!
DEFINITION. The parameters of PTG-Q15: those the source fixes (spec/00_scope.md R4), those the spec fixes (R5), and the
four it leaves open, which "the model takes ... as an argument" (R6).
-/

namespace Sys2Proof

namespace Config

/-- `QSCALE` (R4): the multiplier of the quantizer. -/
def qScale : Nat := 32767

/-- `LANES` (R4): how often FOGEN writes each sample. -/
def lanes : Nat := 16

/-- `FO_MAX_FFT` (R4): the largest `fftSize` of a frequency table. -/
def foMaxFft : Int := 32767

/-- `TM_AW = 32` (R5): table memory has `2^32` cells. -/
def tmCells : Nat := 2 ^ 32

/-- The greatest value R6 admits for MAX_FFT, and the value it suggests for tests. -/
def maxFftTop : Nat := 2 ^ 30

end Config

namespace Machine

/-- One angle `num/den` at which a platform's `Quantize` (R6) differs from `PhaseQ`, and its sample there (log 19). -/
structure QuantEntry where
  num : Int
  den : Int
  sample : Sample
  deriving DecidableEq, Repr

/-- `TM_INIT` (R6), the contents of table memory before the first command, as plain data: the cells listed, and what
every other cell holds (log 5). -/
structure TableInit where
  fill : Cell
  listed : List (Nat × Cell)
  deriving DecidableEq, Repr

/-- The open parameters of R6. -/
structure Params where
  /-- `MAX_FFT` (log 3). -/
  maxFft : Nat
  /-- `Quantize`, given by the angles at which it is not `PhaseQ`, "the default" (log 19). -/
  quant : List QuantEntry
  /-- `N_INST` (log 4). -/
  nInst : Nat
  /-- `TM_INIT` (log 5). -/
  tmInit : TableInit
  deriving DecidableEq, Repr

/-- The column "suggested value for tests" of R6. -/
def Params.suggested : Params where
  maxFft := Config.maxFftTop
  quant := []
  nInst := 1
  tmInit := ⟨0x8000, []⟩

end Machine

end Sys2Proof
end

