-- ==== Sys2Proof/Syntax.lean ====
section
/-!
DEFINITION. The instructions of PTG-Q15: one constructor for each row of spec/opcode_table.json, the six command words
of 30_encoding.md R61 and the two host transactions of R65.
-/

namespace Sys2Proof

/-- The instructions. A command has no operand field (R62); a transaction names a byte offset of the register window,
and a write carries 32 bits (R65). -/
inductive Instr where
  /-- `NOP` (R130). -/
  | nop
  /-- `PQ` (R80). -/
  | pq
  /-- `SCBIN` (R91). -/
  | scbin
  /-- `TALKUP` (R102). -/
  | talkup
  /-- `TAGEN` (R106). -/
  | tagen
  /-- `FOGEN` (R122). -/
  | fogen
  /-- `WR` (R131): write `data` to the register at `off`. -/
  | wr (off : Offset) (data : Word)
  /-- `RD` (R132): read the register at `off`. -/
  | rd (off : Offset)
  deriving DecidableEq, Repr

end Sys2Proof
end

