-- ==== Sys2Proof/WellFormed.lean ====
section
/-!
DEFINITION. Which instructions are well formed: the offset of a host transaction is a multiple of 4
(spec/30_encoding.md R65, 10_state.md R24). A command has nothing to check.
-/

namespace Sys2Proof

/-- An offset that names a whole register (R24, R65). -/
def Offset.aligned (off : Offset) : Bool := off.toNat % 4 == 0

/-- Well-formedness of an instruction. -/
def Instr.wf : Instr → Bool
  | .nop => true
  | .pq => true
  | .scbin => true
  | .talkup => true
  | .tagen => true
  | .fogen => true
  | .wr off _ => Offset.aligned off
  | .rd off => Offset.aligned off

end Sys2Proof
end

