-- ==== Sys2Proof/Decode.lean ====
section
/-!
DEFINITION. Decoding of command words and transaction records (spec/30_encoding.md R60 to R65), total and rejecting by
name, and the encoder written from the same tables.
-/

namespace Sys2Proof

/-- The six commands of the opcode map (R61). -/
inductive Command where
  | nop | pq | scbin | talkup | tagen | fogen
  deriving DecidableEq, Repr

/-- Why a word on the interface is no instruction. -/
inductive DecodeError where
  /-- A command word with `RSV != 0` (R63). -/
  | badRsv
  /-- A command word with `RSV = 0` and an unassigned `OPC` (R63). -/
  | badOpcode
  /-- A record whose `OFF` is not a multiple of 4 (R65). -/
  | unalignedOffset
  /-- A read record with `DATA != 0` (R65). -/
  | readWithData
  deriving DecidableEq, Repr

/-- The instruction a command is. -/
def Command.toInstr : Command → Instr
  | .nop => .nop
  | .pq => .pq
  | .scbin => .scbin
  | .talkup => .talkup
  | .tagen => .tagen
  | .fogen => .fogen

/-- The field `RSV` of a command word (R60). -/
def commandRsv (w : Word) : BitVec 24 := w.extractLsb' 8 24

/-- The field `OPC` of a command word (R60). -/
def commandOpc (w : Word) : BitVec 8 := w.extractLsb' 0 8

/-- The column `OPC` of the opcode map (R61). -/
def decodeOpc (opc : BitVec 8) : Option Command :=
  if opc = 0x00 then some .nop
  else if opc = 0x01 then some .pq
  else if opc = 0x02 then some .scbin
  else if opc = 0x03 then some .talkup
  else if opc = 0x10 then some .tagen
  else if opc = 0x11 then some .fogen
  else none

/-- Decoding of a command word: "A decoder tests `RSV` first, then `OPC`" (R60, R63). -/
def decodeCommand (w : Word) : Except DecodeError Command :=
  if commandRsv w ≠ 0 then .error .badRsv
  else
    match decodeOpc (commandOpc w) with
    | some c => .ok c
    | none => .error .badOpcode

/-- The field `WE` of a record (R65). -/
def recordWe (r : Record) : Bool := r.getLsbD 40

/-- The field `OFF` of a record (R65). -/
def recordOff (r : Record) : Offset := r.extractLsb' 32 8

/-- The field `DATA` of a record (R65). -/
def recordData (r : Record) : Word := r.extractLsb' 0 32

/-- Decoding of a transaction record (R65). -/
def decodeRecord (r : Record) : Except DecodeError Instr :=
  if Offset.aligned (recordOff r) = false then .error .unalignedOffset
  else if recordWe r then .ok (.wr (recordOff r) (recordData r))
  else if recordData r ≠ 0 then .error .readWithData
  else .ok (.rd (recordOff r))

/-- Decoding of whatever the host puts on the interface. -/
def decode : BusWord → Except DecodeError Instr
  | .cmd32 w =>
    match decodeCommand w with
    | .ok c => .ok c.toInstr
    | .error e => .error e
  | .bus41 r => decodeRecord r

/-- The word of a command (R61, column `word`). -/
def encodeCommand : Command → Word
  | .nop => 0x00000000
  | .pq => 0x00000001
  | .scbin => 0x00000002
  | .talkup => 0x00000003
  | .tagen => 0x00000010
  | .fogen => 0x00000011

/-- The record of a transaction (R65). -/
def encodeRecord (we : Bool) (off : Offset) (data : Word) : Record :=
  (BitVec.ofBool we ++ off) ++ data

/-- The words of an instruction. -/
def encode : Instr → BusWord
  | .nop => .cmd32 (encodeCommand .nop)
  | .pq => .cmd32 (encodeCommand .pq)
  | .scbin => .cmd32 (encodeCommand .scbin)
  | .talkup => .cmd32 (encodeCommand .talkup)
  | .tagen => .cmd32 (encodeCommand .tagen)
  | .fogen => .cmd32 (encodeCommand .fogen)
  | .wr off data => .bus41 (encodeRecord true off data)
  | .rd off => .bus41 (encodeRecord false off 0)

/-- The interface word that a row of spec/opcode_table.json of `nbits` bits stands for (log 9): up to 32 bits it is a
command word, above that a record. -/
def tableWord (nbits w : Nat) : BusWord :=
  if nbits ≤ 32 then .cmd32 (BitVec.ofNat 32 w) else .bus41 (BitVec.ofNat 41 w)

/-- The instruction the decoder reads from the bits of a table row. -/
def decodeTableWord (nbits w : Nat) : Option Instr :=
  match decode (tableWord nbits w) with
  | .ok i => if w < (if nbits ≤ 32 then 2 ^ 32 else 2 ^ 41) then some i else none
  | .error _ => none

end Sys2Proof
end

