-- ==== Sys2Proof/Machine/State.lean ====
section
/-!
DEFINITION. The state of a platform with PTG-Q15 instances, as plain data; why a step can stop; the state after reset.
-/

namespace Sys2Proof.Machine

/-- The stored registers of one instance (spec/10_state.md R10). `CMD` (register 0) "stores nothing" (R11) and has no
field. -/
structure Regs where
  /-- `STATUS`, register 1 (R12). -/
  status : Word
  /-- `FFTSIZE`, register 2 (R13). -/
  fftSize : Word
  /-- `CPLEN`, register 3 (R14). -/
  cpLen : Word
  /-- `NUMSC`, register 4 (R15). -/
  numSc : Word
  /-- `ARG0`, register 5 (R16). -/
  arg0 : Word
  /-- `ARG1`, register 6 (R17). -/
  arg1 : Word
  /-- `DST`, register 7 (R18). -/
  dst : Word
  /-- `CAP`, register 8 (R19). -/
  cap : Word
  /-- `RES_COS`, register 9 (R20). -/
  resCos : Word
  /-- `RES_SIN`, register 10 (R21). -/
  resSin : Word
  /-- `RES_IDX`, register 11 (R22). -/
  resIdx : Word
  deriving DecidableEq, Repr

/-- Table memory (20_memory.md R40): the cells that differ from `TM_INIT` (R6), by rising cell address. A cell that is
not listed holds what `TM_INIT` gives it (log 5, log 6). -/
abbrev TableMemory := List (Nat × Cell)

/-- What the host does to an instance: one transaction on its interface (R131, R132), or its reset input (R170). -/
inductive HostAct where
  | send (w : BusWord)
  | reset
  deriving DecidableEq, Repr

/-- A host action and the number of the instance it addresses (10_state.md R31, 60_exceptions.md R160). -/
structure HostStep where
  target : Nat
  act : HostAct
  deriving DecidableEq, Repr

/-- The state. -/
structure State where
  /-- The registers of the instance that the current transaction addresses. -/
  regs : Regs
  /-- The registers of the instances with lower numbers, in order (R31; `N_INST` is the number of all, log 4). -/
  before : List Regs
  /-- The registers of the instances with higher numbers, in order (R31). -/
  after : List Regs
  /-- Table memory (R40), shared by the instances. -/
  tm : TableMemory
  /-- The open parameter MAX_FFT (R6), a constant of the platform that no step changes (log 3). -/
  maxFft : Nat
  /-- The open parameter Quantize (R6), a constant of the platform: the angles at which it is not `PhaseQ` (log 19). -/
  quant : List QuantEntry
  /-- The open parameter TM_INIT (R6), a constant of the platform (log 5). -/
  tmInit : TableInit
  /-- The host actions not yet performed, oldest first (R51, R65; the model's own field, log 7). -/
  bus : List HostStep
  /-- The values host reads have returned, oldest first (R132; the model's own field, log 8). -/
  reads : List Word
  deriving DecidableEq, Repr

/-- Why the machine would stop. The spec has no trap (60_exceptions.md R150); neither of these is reachable. -/
inductive Fault where
  /-- Raised by `State.memWrites` for a cell address outside table memory (R40: no such cell; R50: addresses never wrap
  around). Safe: the machine stops instead of writing a cell that does not exist. -/
  | noSuchCell
  /-- Raised by SCBIN, TALKUP and TAGEN if the remapper were evaluated outside its domain, where R93 gives it no value.
  Safe: the machine stops instead of going on with a value of the model's choosing. -/
  | remapUndefined
  deriving DecidableEq, Repr

/-- Why a step is no step of this model. -/
inductive Refusal where
  /-- Raised by no meaning: an arm of exec whose instruction has none yet. Safe. -/
  | notModelled (mnemonic : String)
  /-- Raised by WR, RD and by decoding a record whose offset is not a multiple of 4: "unaligned accesses do not exist on
  this interface; a model refuses them" (R24, R65). Safe. -/
  | unalignedAccess
  /-- Raised by decoding a read record with `DATA != 0`: it "is not a transaction; a model refuses it" (R65). Safe. -/
  | readWithData
  /-- Raised by `step` for a host action addressed to an instance the platform does not have (R160, log 11). Safe. -/
  | noSuchInstance
  deriving DecidableEq, Repr

/-- The outcome of a step of this machine. -/
abbrev Answer := Host.Outcome State Fault Refusal

/-- The registers after reset: "every register of rule R10 that stores a value holds 0" (R30). -/
def Regs.reset : Regs where
  status := 0
  fftSize := 0
  cpLen := 0
  numSc := 0
  arg0 := 0
  arg1 := 0
  dst := 0
  cap := 0
  resCos := 0
  resSin := 0
  resIdx := 0

/-- A platform with the open parameters `p` (R6) right after reset (R30, R170): `N_INST` idle instances (`N_INST >= 1`),
the first of them addressed, table memory as `TM_INIT` gives it, nothing asked of it yet (log 7, log 8). -/
def State.powerOn (p : Params) : State where
  regs := Regs.reset
  before := []
  after := List.replicate (p.nInst - 1) Regs.reset
  tm := []
  maxFft := p.maxFft
  quant := p.quant
  tmInit := p.tmInit
  bus := []
  reads := []

/-- The state right after reset of a platform with the parameters R6 suggests; taking those values is a DESIGN CHOICE
(log 1, log 3, log 4, log 5). -/
def State.reset : State := State.powerOn Params.suggested

end Sys2Proof.Machine
end

