-- ==== Sys2Proof/Machine/Flags.lean ====
section
/-!
DEFINITION. What a command leaves instead of flags. "There are no condition codes, no carry or overflow flags and no
predicates" (spec/10_state.md R27); "The only status a command leaves is `STATUS`": its classes and causes
(60_exceptions.md R140, R141) and its layout (10_state.md R12).
-/

namespace Sys2Proof.Machine

/-- The error classes (R140), `STATUS.CODE`. -/
inductive Code where
  | ok | invalidConfig | resource | internal | illegalCmd
  deriving DecidableEq, Repr

/-- The causes (R141), `STATUS.CAUSE`. `idxRange` is reserved and no transition uses it (R143). -/
inductive Cause where
  | none | fftNonpos | fftNotPow2 | fftGtI16 | cpNeg | nscNonpos | nscOdd | nscGtFft | arg0Range | arg1Range
  | fftGtMax | capShort | addrWrap | idxRange | badOpcode | badRsv
  deriving DecidableEq, Repr

/-- The number of a class (R140). -/
def Code.number : Code → Nat
  | .ok => 0
  | .invalidConfig => 1
  | .resource => 2
  | .internal => 3
  | .illegalCmd => 4

/-- The number of a cause (R141). -/
def Cause.number : Cause → Nat
  | .none => 0x00
  | .fftNonpos => 0x01
  | .fftNotPow2 => 0x02
  | .fftGtI16 => 0x03
  | .cpNeg => 0x04
  | .nscNonpos => 0x05
  | .nscOdd => 0x06
  | .nscGtFft => 0x07
  | .arg0Range => 0x08
  | .arg1Range => 0x09
  | .fftGtMax => 0x10
  | .capShort => 0x11
  | .addrWrap => 0x12
  | .idxRange => 0x20
  | .badOpcode => 0x30
  | .badRsv => 0x31

/-- The class of a cause (R141). -/
def Cause.code : Cause → Code
  | .none => .ok
  | .fftNonpos => .invalidConfig
  | .fftNotPow2 => .invalidConfig
  | .fftGtI16 => .invalidConfig
  | .cpNeg => .invalidConfig
  | .nscNonpos => .invalidConfig
  | .nscOdd => .invalidConfig
  | .nscGtFft => .invalidConfig
  | .arg0Range => .invalidConfig
  | .arg1Range => .invalidConfig
  | .fftGtMax => .resource
  | .capShort => .resource
  | .addrWrap => .resource
  | .idxRange => .internal
  | .badOpcode => .illegalCmd
  | .badRsv => .illegalCmd

/-- The value of `STATUS` for a cause: `CAUSE * 256 + CODE` (R12, R150). -/
def statusWord (c : Cause) : Word := BitVec.ofNat 32 (c.number * 256 + c.code.number)

/-- The field `STATUS.CODE` (R12). -/
def statusCode (w : Word) : BitVec 4 := w.extractLsb' 0 4

/-- The field `STATUS.CAUSE` (R12). -/
def statusCause (w : Word) : BitVec 8 := w.extractLsb' 8 8

end Sys2Proof.Machine
end

