-- ==== Sys2Proof/Machine/Ops.lean ====
section
/-!
DEFINITION. The named operations over registers, table memory and instances that the meanings share: host register
access (spec/44_nop_and_host_access.md R131, R132), the end of a command and the error return (60_exceptions.md R150),
the cell write (20_memory.md R43), the choice of an instance (10_state.md R31) and the reset input
(70_reset_and_hazards.md R170).
-/

namespace Sys2Proof.Machine

/-- What a host read of register number `i` returns (R10, R132): `CMD` and the reserved numbers read as 0. -/
def Regs.read (i : Nat) (r : Regs) : Word :=
  match i with
  | 1 => r.status
  | 2 => r.fftSize
  | 3 => r.cpLen
  | 4 => r.numSc
  | 5 => r.arg0
  | 6 => r.arg1
  | 7 => r.dst
  | 8 => r.cap
  | 9 => r.resCos
  | 10 => r.resSin
  | 11 => r.resIdx
  | _ => 0

/-- What a host write of `v` to register number `i`, other than `CMD`, does (R131): registers 2 to 8 take all 32 bits;
a write to a read-only register or a reserved number is ignored (R23, R24). -/
def Regs.write (i : Nat) (v : Word) (r : Regs) : Regs :=
  match i with
  | 2 => { r with fftSize := v }
  | 3 => { r with cpLen := v }
  | 4 => { r with numSc := v }
  | 5 => { r with arg0 := v }
  | 6 => { r with arg1 := v }
  | 7 => { r with dst := v }
  | 8 => { r with cap := v }
  | _ => r

/-- The end of a command: "Every command overwrites the whole register at its end" (R12). -/
def State.finish (c : Cause) (s : State) : State :=
  { s with regs := { s.regs with status := statusWord c } }

/-- `raise Error(CODE, CAUSE)`, the error return (R150): `STATUS <- CAUSE * 256 + CODE`, "Nothing else changes". -/
def State.raise (c : Cause) (s : State) : State := s.finish c

/-- The end of a command that did everything its rule says: `STATUS <- 0`. -/
def State.succeed (s : State) : State := s.finish .none

/-- The first check that fails (R145: "the first that fails ends the command"); each check is paired with its cause. -/
def firstFailed : List (Bool × Cause) → Option Cause
  | [] => none
  | (fails, c) :: rest => if fails then some c else firstFailed rest

/-- The value a list of cells gives cell `a`, where it lists it. -/
def cellListed (a : Nat) : List (Nat × Cell) → Option Cell
  | [] => none
  | (b, v) :: rest => if b = a then some v else cellListed a rest

/-- What `TM_INIT` (R6) gives cell `a`. -/
def TableInit.cell (a : Nat) (init : TableInit) : Cell := (cellListed a init.listed).getD init.fill

/-- What table memory holds in cell `a`: `MemRead(a, 2)` (00_scope.md section 5), which the block never performs (R43). -/
def TableMemory.read (init : TableInit) (a : Nat) (m : TableMemory) : Cell := (cellListed a m).getD (init.cell a)

/-- The one form table memory has in a state: addresses strictly rising, each the address of a cell (R40), none with
the value `TM_INIT` gives it. -/
abbrev TableMemory.wf (init : TableInit) (m : TableMemory) : Prop :=
  (m.map (·.1)).Pairwise (· < ·) ∧ ∀ x ∈ m, x.1 < Config.tmCells ∧ x.2 ≠ init.cell x.1

/-- The list of cells with the value `v` for cell `a`, still in rising order. -/
def cellInsert (a : Nat) (v : Cell) : List (Nat × Cell) → List (Nat × Cell)
  | [] => [(a, v)]
  | (b, w) :: rest =>
    if a < b then (a, v) :: (b, w) :: rest
    else if a = b then (a, v) :: rest
    else (b, w) :: cellInsert a v rest

/-- `MemWrite(a, 2, v)`: a cell that gets back what `TM_INIT` gave it is listed no more. -/
def TableMemory.write (init : TableInit) (a : Nat) (v : Cell) (m : TableMemory) : TableMemory :=
  if v = init.cell a then m.filter (fun x => x.1 != a) else cellInsert a v m

/-- The cell writes of a command, in the order they are issued (R43, R52). An address outside table memory names no
cell (R40). -/
def State.memWrites : List (Nat × Cell) → State → Answer
  | [], s => .next s
  | (a, v) :: rest, s =>
    if a < Config.tmCells then State.memWrites rest { s with tm := TableMemory.write s.tmInit a v s.tm }
    else .fault .noSuchCell

/-- The cell writes of a command and its successful end. -/
def State.writeTable (ws : List (Nat × Cell)) (s : State) : Answer :=
  match s.memWrites ws with
  | .next t => .next t.succeed
  | .fault f => .fault f
  | .refused r => .refused r

/-- The byte of a byte-addressed memory onto which a platform maps table memory at base `base` (R47): cell `a` has its
less significant byte at `base + 2 * a`. No value at an address that is no cell's. -/
def TableMemory.byteAt (init : TableInit) (base x : Nat) (m : TableMemory) : Option (BitVec 8) :=
  if x < base ∨ base + 2 * Config.tmCells ≤ x then none
  else some ((TableMemory.read init ((x - base) / 2) m).extractLsb' (8 * ((x - base) % 2)) 8)

/-- All instances of the platform, in the order of their numbers. -/
def State.instances (s : State) : List Regs := s.before ++ s.regs :: s.after

/-- The number of the instance that `regs` belongs to. -/
def State.selected (s : State) : Nat := s.before.length

/-- The same platform with instance `j` addressed; none where the platform has no instance `j`. -/
def State.select (j : Nat) (s : State) : Option State :=
  match s.instances.drop j with
  | [] => none
  | r :: rest => some { s with before := s.instances.take j, regs := r, after := rest }

/-- The reset input of the addressed instance, asserted and released (R170): its stored registers are 0; table memory
keeps its contents (R171). -/
def State.resetBlock (s : State) : State := { s with regs := Regs.reset }

end Sys2Proof.Machine
end

