-- ==== Sys2Proof/Machine/Operands.lean ====
section
/-!
DEFINITION. The operand forms: every command reads its operands from fixed registers (spec/30_encoding.md R62), each as
the type 10_state.md gives it, and writes its results in the forms of 00_scope.md section 5. The integer functions of
00_scope.md R9 that the commands share.
-/

namespace Sys2Proof.Machine

/-- `N = s32(x[FFTSIZE])` (R13). -/
def Regs.fftN (r : Regs) : Int := r.fftSize.toInt

/-- `CP = s32(x[CPLEN])` (R14). -/
def Regs.cp (r : Regs) : Int := r.cpLen.toInt

/-- `NSC = s32(x[NUMSC])` (R15). -/
def Regs.nsc (r : Regs) : Int := r.numSc.toInt

/-- `s32(x[ARG0])` (R16). -/
def Regs.a0 (r : Regs) : Int := r.arg0.toInt

/-- `s32(x[ARG1])` (R17). -/
def Regs.a1 (r : Regs) : Int := r.arg1.toInt

/-- `x[DST]`, unsigned (R18). -/
def Regs.d (r : Regs) : Nat := r.dst.toNat

/-- `x[CAP]`, unsigned (R19). -/
def Regs.capPairs (r : Regs) : Nat := r.cap.toNat

/-- `enc16(i)` (00_scope.md section 5). -/
def enc16 (i : Int) : Cell := BitVec.ofInt 16 i

/-- `sext_32(v)` (00_scope.md section 5). -/
def sext32 (v : Cell) : Word := v.signExtend 32

/-- `u32(v)` (00_scope.md section 5). -/
def u32 (v : Int) : Word := BitVec.ofInt 32 v

/-- The two result registers of a phase sample, "always written together by one command" (R20, R21). -/
def State.putSample (p : Sample) (s : State) : State :=
  { s with regs := { s.regs with resCos := sext32 (enc16 p.cos), resSin := sext32 (enc16 p.sin) } }

/-- The index result register (R22). -/
def State.putIndex (i : Int) (s : State) : State :=
  { s with regs := { s.regs with resIdx := u32 i } }

/-- `rem(x, N)`, the remainder with the sign of the dividend (R9). -/
def rem (x N : Int) : Int := x - N * Int.tdiv x N

/-- `wrap(x, N)`, the normalised modulo (R9). -/
def wrap (x N : Int) : Int := if rem x N < 0 then rem x N + N else rem x N

/-- `ispow2(N)` (R9): positive, with one bit set. -/
def isPow2 (N : Int) : Bool := decide (0 < N) && N.toNat == 2 ^ N.toNat.log2

/-- `for v in lo .. hi`: the values in ascending order, none when `lo > hi` (00_scope.md section 5). -/
def forRange (lo hi : Int) : List Int := (List.range (hi - lo + 1).toNat).map fun (i : Nat) => lo + (i : Int)

/-- The cell writes of one pair: cosine at `D + 2p`, sine at `D + 2p + 1` (20_memory.md R41). -/
def pairWrites (D p : Nat) (q : Sample) : List (Nat × Cell) :=
  [(D + 2 * p, enc16 q.cos), (D + 2 * p + 1, enc16 q.sin)]

/-- The resource checks both generators end with, on the pairs they must write (R105, R121). -/
def checkBuffer (r : Regs) (req : Int) : List (Bool × Cause) :=
  [(decide (req > r.capPairs), .capShort),
   (decide (r.d + 2 * req > Config.tmCells), .addrWrap)]

end Sys2Proof.Machine
end

