-- ==== Sys2Proof/Machine/PhaseQ.lean ====
section
/-!
DEFINITION. `PhaseQ` (spec/00_scope.md R8) as a function that can be evaluated: the third way of 40_quantizer.md
section 5. The exact points are read from the `N = 12` row of the vectors (R82); every other sample is found by
enclosing the cosine and the sine between two multiples of `2^-p` and raising `p` until both ends round alike. That it
equals the real-number function of R8 at every `n` and `N > 0` is a statement of this package, not an assumption
(log 2).
-/

namespace Sys2Proof.Machine

/-- `2^p` times a partial sum of the arctangent series, from the term `k` whose power of `1/x` is `u` at that scale. -/
def atanSum (x : Nat) : Nat → Nat → Nat → Int
  | 0, _, _ => 0
  | n + 1, k, u => (u / (2 * k + 1) : Nat) - atanSum x n (k + 1) (u / (x * x))

/-- `pi` at scale `2^p`, by Machin's formula `pi = 16 arctan(1/5) - 4 arctan(1/239)`. -/
def piScaled (p : Nat) : Int :=
  4 * (4 * atanSum 5 (p / 4 + 1) 0 (2 ^ p / 5) - atanSum 239 (p / 4 + 1) 0 (2 ^ p / 239))

/-- Real and imaginary part, at scale `S`, of a partial sum of the series of `exp(i a/S)`, from the term `k` whose
magnitude is `t` at that scale. -/
def expSum (S a : Nat) : Nat → Nat → Nat → Int × Int
  | 0, _, _ => (0, 0)
  | n + 1, k, t =>
    let rest := expSum S a n (k + 1) (t * a / (S * (k + 1)))
    (t - rest.2, rest.1)

/-- `floor(v/S * 32767 + 1/2)`, the rounding of R7 for a value that is not negative. -/
def roundQ (S v : Int) : Int := (2 * Config.qScale * v + S) / (2 * S)

/-- The half width, at scale `2^p`, of the enclosures `enclose` finds. -/
def encloseErr (p : Nat) : Int := 16 * p

/-- Cosine and sine of `(pi/2) * (r/N)` at scale `2^p`, each right to within `encloseErr p`. -/
def enclose (p r N : Nat) : Int × Int :=
  expSum (2 ^ p) ((piScaled p * r).toNat / (2 * N)) (p / 2) 0 (2 ^ p)

/-- The sample at precision `p`, where both ends of both enclosures round alike. -/
def roundAt (p r N : Nat) : Option Sample :=
  let v := enclose p r N
  let e := encloseErr p
  let S : Int := 2 ^ p
  if roundQ S (v.1 - e) = roundQ S (v.1 + e) ∧ roundQ S (v.2 - e) = roundQ S (v.2 + e) then
    some ⟨roundQ S v.1, roundQ S v.2⟩
  else none

/-- Precisions `p`, `2p`, `4p`, ... until one settles the rounding. -/
def refine : Nat → Nat → Nat → Nat → Sample
  | 0, _, _, _ => ⟨0, 0⟩
  | fuel + 1, p, r, N =>
    match roundAt p r N with
    | some q => q
    | none => refine fuel (2 * p) r N

/-- The sample of the angle `(pi/2) * (r/N)`, `0 <= r < N`. -/
def firstQuadrant (r N : Nat) : Sample :=
  if r = 0 then ⟨32767, 0⟩
  else if 3 * r = N then ⟨28377, 16384⟩
  else if 3 * r = 2 * N then ⟨16384, 28377⟩
  else refine (N.log2 + 3) 64 r N

/-- A sample turned by `j` quarter turns (P-quarter of R84). -/
def quarterTurns (j : Nat) (q : Sample) : Sample :=
  match j with
  | 0 => q
  | 1 => ⟨-q.sin, q.cos⟩
  | 2 => ⟨-q.cos, -q.sin⟩
  | _ => ⟨q.sin, -q.cos⟩

/-- `PhaseQ(n, N)` (R8), for `N > 0`. -/
def phaseQ (n N : Int) : Sample :=
  let m := (n % N).toNat
  quarterTurns (4 * m / N.toNat) (firstQuadrant (4 * m % N.toNat) N.toNat)

end Sys2Proof.Machine
end

