-- ==== Sys2Proof/Machine/Quantize.lean ====
section
/-!
DEFINITION. The quantizer of a platform (spec/40_quantizer.md R81, R84) and the command PQ (R80).
-/

namespace Sys2Proof.Machine

/-- Whether R84 admits an entry: its sample lies in `[-32767, 32767]` (P-range), and its angle is no multiple of a
quarter turn, where (P-zero) and (P-quadrant) fix the sample. -/
def QuantEntry.admitted (x : QuantEntry) : Bool :=
  decide (-32767 ≤ x.sample.cos ∧ x.sample.cos ≤ 32767 ∧ -32767 ≤ x.sample.sin ∧ x.sample.sin ≤ 32767 ∧
    4 * x.num % x.den ≠ 0)

/-- Whether an entry is for the angle `n/N`, up to whole turns (P-period of R84). -/
def QuantEntry.isFor (n N : Int) (x : QuantEntry) : Bool := decide (x.num = wrap n N ∧ x.den = N)

/-- The quantizer function with the exceptions `l`: "the default is the exact function `PhaseQ`" (R6). An entry that R84
does not admit is none, so that every list gives a function with the properties of R84 (log 19). -/
def quantize (l : List QuantEntry) : Quantizer := fun n N =>
  match l.find? fun x => x.admitted && x.isFor n N with
  | some x => x.sample
  | none => phaseQ n N

/-- The one quantizer function of the block (R81), on this platform. -/
def State.quantizer (s : State) : Quantizer := quantize s.quant

/-- The check of PQ (R80). -/
def checkPq (r : Regs) : List (Bool × Cause) :=
  [(decide (r.fftN ≤ 0), .fftNonpos)]

/-- `PQ` (R80) with the quantizer `q`. -/
def execPqWith (q : Quantizer) (s : State) : Answer :=
  match firstFailed (checkPq s.regs) with
  | some c => .next (s.raise c)
  | none =>
    .next ((s.putSample (q s.regs.a0 s.regs.fftN)).putIndex (wrap s.regs.a0 s.regs.fftN)).succeed

/-- `PQ` (R80). -/
def execPq (s : State) : Answer := execPqWith s.quantizer s

end Sys2Proof.Machine
end

