-- ==== Sys2Proof/Machine/Frequency.lean ====
section
/-!
DEFINITION. The frequency-offset phase-ramp replicator FOGEN (spec/43_frequency_table.md R120 to R127).
-/

namespace Sys2Proof.Machine

/-- `CheckFO` (R120). -/
def checkFO (r : Regs) : List (Bool × Cause) :=
  [(decide (r.fftN ≤ 0), .fftNonpos),
   (decide (r.fftN > Config.foMaxFft), .fftGtI16)]

/-- The pairs of the frequency-offset table, `REQ_FO = 16 N` (20_memory.md R45). -/
def reqFO (r : Regs) : Int := Config.lanes * r.fftN

/-- The checks of FOGEN: `CheckFO`, then `CheckResFO` (R121, R122). -/
def checkFogen (r : Regs) : List (Bool × Cause) := checkFO r ++ checkBuffer r (reqFO r)

/-- The pair number of sample `n`, lane `l` (20_memory.md R45). -/
def pairFO (n l : Int) : Nat := (Config.lanes * n + l).toNat

/-- The cell writes of R122, sample-major and lane-minor. The accumulator of R123 is `n` itself when sample `n` is
quantized. -/
def writesFO (q : Quantizer) (N : Int) (D : Nat) : List (Nat × Cell) :=
  (forRange 0 (N - 1)).flatMap fun n =>
    (forRange 0 (Config.lanes - 1)).flatMap fun l => pairWrites D (pairFO n l) (q n N)

/-- `FOGEN` (R122) with the quantizer `q`. -/
def execFogenWith (q : Quantizer) (s : State) : Answer :=
  match firstFailed (checkFogen s.regs) with
  | some c => .next (s.raise c)
  | none => s.writeTable (writesFO q s.regs.fftN s.regs.d)

/-- `FOGEN` (R122). -/
def execFogen (s : State) : Answer := execFogenWith s.quantizer s

end Sys2Proof.Machine
end

