-- ==== Sys2Proof/Machine/Remap.lean ====
section
/-!
DEFINITION. The subcarrier-to-bin remapper (spec/41_remapper.md R90, R93) and the command SCBIN (R91).
-/

namespace Sys2Proof.Machine

/-- `bin(k)` (R90); no value outside its domain (R93, log 15). -/
def bin (N NSC k : Int) : Option Int :=
  if NSC % 2 = 0 ∧ 0 < NSC ∧ NSC ≤ N ∧ 0 ≤ k ∧ k < NSC then
    some (if k < NSC / 2 then k + (N - NSC / 2) else k - NSC / 2)
  else none

/-- The checks of `NUMSC` against `FFTSIZE`, in the order R91 and R103 share. -/
def checkNsc (r : Regs) : List (Bool × Cause) :=
  [(decide (r.nsc ≤ 0), .nscNonpos),
   (decide (r.nsc % 2 = 1), .nscOdd),
   (decide (r.nsc > r.fftN), .nscGtFft)]

/-- The checks of SCBIN (R91). -/
def checkScbin (r : Regs) : List (Bool × Cause) :=
  (decide (r.fftN ≤ 0), .fftNonpos) :: checkNsc r ++
    [(decide (r.a0 < 0) || decide (r.a0 ≥ r.nsc), .arg0Range)]

/-- `SCBIN` (R91). -/
def execScbin (s : State) : Answer :=
  match firstFailed (checkScbin s.regs) with
  | some c => .next (s.raise c)
  | none =>
    match bin s.regs.fftN s.regs.nsc s.regs.a0 with
    | some b => .next (s.putIndex b).succeed
    | none => .fault .remapUndefined

end Sys2Proof.Machine
end

