-- ==== Sys2Proof/Machine/Timing.lean ====
section
/-!
DEFINITION. The timing-offset lookup TALKUP (spec/42_timing_table.md R102) and the timing-alignment table generator
TAGEN (R106).
-/

namespace Sys2Proof.Machine

/-- `CheckTA` (R103). -/
def checkTA (r : Regs) : List (Bool × Cause) :=
  [(decide (r.fftN ≤ 0), .fftNonpos),
   (!isPow2 r.fftN, .fftNotPow2),
   (decide (r.cp < 0), .cpNeg)] ++ checkNsc r

/-- The check of `FFTSIZE` against MAX_FFT (R102, R105). -/
def checkMax (s : State) : List (Bool × Cause) :=
  [(decide (s.regs.fftN > s.maxFft), .fftGtMax)]

/-- The checks of TALKUP, in order (R102). -/
def checkTalkup (s : State) : List (Bool × Cause) :=
  checkTA s.regs ++
    [(decide (s.regs.a0 < -s.regs.cp) || decide (s.regs.a0 > s.regs.cp), .arg0Range),
     (decide (s.regs.a1 < 0) || decide (s.regs.a1 ≥ s.regs.nsc), .arg1Range)] ++ checkMax s

/-- The table index for the bin `b` and the timing offset `t` (R100); the product is formed over the integers (R101). -/
def tableIndex (N b t : Int) : Int := wrap (b * t) N

/-- `TALKUP` (R102) with the quantizer `q`. -/
def execTalkupWith (q : Quantizer) (s : State) : Answer :=
  match firstFailed (checkTalkup s) with
  | some c => .next (s.raise c)
  | none =>
    match bin s.regs.fftN s.regs.nsc s.regs.a1 with
    | some b =>
      let i := tableIndex s.regs.fftN b s.regs.a0
      .next ((s.putIndex i).putSample (q i s.regs.fftN)).succeed
    | none => .fault .remapUndefined

/-- `TALKUP` (R102). -/
def execTalkup (s : State) : Answer := execTalkupWith s.quantizer s

/-- The pairs of the timing-alignment table, `REQ_TA = (2 CP + 1) NSC` (20_memory.md R44). -/
def reqTA (r : Regs) : Int := (2 * r.cp + 1) * r.nsc

/-- The checks of TAGEN: `CheckTA`, then `CheckResTA` (R105, R106). -/
def checkTagen (s : State) : List (Bool × Cause) :=
  checkTA s.regs ++ checkMax s ++ checkBuffer s.regs (reqTA s.regs)

/-- The pair number of the entry for timing offset `t` and subcarrier `k` (20_memory.md R44). -/
def pairTA (CP NSC t k : Int) : Nat := ((t + CP) * NSC + k).toNat

/-- All values, or none where one is missing. -/
def allSome {α : Type} : List (Option α) → Option (List α)
  | [] => some []
  | none :: _ => none
  | some a :: rest => (allSome rest).map (a :: ·)

/-- Step 2 of R106, the bin table: each subcarrier `k` with `bin(k)`. -/
def binTable (N NSC : Int) : Option (List (Int × Int)) :=
  allSome ((forRange 0 (NSC - 1)).map fun k => (bin N NSC k).map fun b => (k, b))

/-- Step 3 of R106, the cell writes, offset-major and subcarrier-minor. The entry `PT[i]` of step 1 is
`Quantize(i, N)` (R85, R104); the table `PT` itself is transient (10_state.md R28). -/
def writesTA (q : Quantizer) (N CP NSC : Int) (D : Nat) (bins : List (Int × Int)) : List (Nat × Cell) :=
  (forRange (-CP) CP).flatMap fun t =>
    bins.flatMap fun kb => pairWrites D (pairTA CP NSC t kb.1) (q (tableIndex N kb.2 t) N)

/-- `TAGEN` (R106) with the quantizer `q`. -/
def execTagenWith (q : Quantizer) (s : State) : Answer :=
  match firstFailed (checkTagen s) with
  | some c => .next (s.raise c)
  | none =>
    match binTable s.regs.fftN s.regs.nsc with
    | some bins => s.writeTable (writesTA q s.regs.fftN s.regs.cp s.regs.nsc s.regs.d bins)
    | none => .fault .remapUndefined

/-- `TAGEN` (R106). -/
def execTagen (s : State) : Answer := execTagenWith s.quantizer s

end Sys2Proof.Machine
end

