-- ==== Sys2Proof/Machine/HostAccess.lean ====
section
/-!
DEFINITION. NOP and the two host transactions (spec/44_nop_and_host_access.md R130 to R132), and what a word that is no
command or no transaction does (30_encoding.md R63, R65).
-/

namespace Sys2Proof.Machine

/-- `NOP` (R130): clears `STATUS`; it "cannot fail". -/
def execNop (s : State) : Answer := .next s.succeed

/-- What a command does once decoded (10_state.md R11). -/
def runCommand (c : Command) (s : State) : Answer :=
  match c with
  | .nop => execNop s
  | .pq => execPq s
  | .scbin => execScbin s
  | .talkup => execTalkup s
  | .tagen => execTagen s
  | .fogen => execFogen s

/-- What the interface does with a word that is no instruction: an illegal command word ends with `ILLEGAL_CMD` (R63);
what is no transaction is refused (R65). -/
def answerUndecoded (e : DecodeError) (s : State) : Answer :=
  match e with
  | .badRsv => .next (s.raise .badRsv)
  | .badOpcode => .next (s.raise .badOpcode)
  | .unalignedOffset => .refused .unalignedAccess
  | .readWithData => .refused .readWithData

/-- The issue of the command word `w` (10_state.md R11): decode, perform the whole command, leave `STATUS`. -/
def issueCommand (w : Word) (s : State) : Answer :=
  match decodeCommand w with
  | .ok c => runCommand c s
  | .error e => answerUndecoded e s

/-- The register number at a byte offset (10_state.md R10: "Register number `i` is at byte offset `4·i`"). -/
def regNumber (off : Offset) : Nat := off.toNat / 4

/-- `WR` (R131): offset 0 issues the command `data`, any other writes its register or is ignored. -/
def execWr (off : Offset) (data : Word) (s : State) : Answer :=
  if Offset.aligned off = false then .refused .unalignedAccess
  else if off = 0 then issueCommand data s
  else .next { s with regs := s.regs.write (regNumber off) data }

/-- `RD` (R132): the value goes to the host (log 8); nothing else changes. -/
def execRd (off : Offset) (s : State) : Answer :=
  if Offset.aligned off = false then .refused .unalignedAccess
  else .next { s with reads := s.reads ++ [s.regs.read (regNumber off)] }

end Sys2Proof.Machine
end

