-- ==== Sys2Proof/Machine/Dispatch.lean ====
section
/-!
DEFINITION. exec: one arm per constructor of Instr.
-/

namespace Sys2Proof.Machine

def exec (i : Instr) (s : State) : Host.Outcome State Fault Refusal :=
  match i with
  | .nop => Sys2Proof.Machine.execNop s
  | .pq => Sys2Proof.Machine.execPq s
  | .scbin => Sys2Proof.Machine.execScbin s
  | .talkup => Sys2Proof.Machine.execTalkup s
  | .tagen => Sys2Proof.Machine.execTagen s
  | .fogen => Sys2Proof.Machine.execFogen s
  | .wr off data => Sys2Proof.Machine.execWr off data s
  | .rd off => Sys2Proof.Machine.execRd off s

end Sys2Proof.Machine
end

