-- ==== Sys2Proof/Machine/Fetch.lean ====
section
/-!
DEFINITION. Where the next instruction comes from. The block "fetches nothing: the order of commands is the order in
which the host writes `CMD`" (spec/10_state.md R25): the host's actions take effect one at a time in the order the host
issues them (20_memory.md R51).
-/

namespace Sys2Proof.Machine

/-- What the next host action asks for. -/
inductive Fetched where
  /-- No host action is pending. -/
  | idle
  /-- The instruction `i`, to be run on the state `s`. -/
  | run (i : Instr) (s : State)
  /-- An answer without an instruction: a reset, an illegal command word, or a refusal. -/
  | ended (o : Answer)

/-- One host action on the instance it addresses. -/
def actOn (act : HostAct) (s : State) : Fetched :=
  match act with
  | .reset => .ended (.next s.resetBlock)
  | .send w =>
    match decode w with
    | .ok i => .run i s
    | .error e => .ended (answerUndecoded e s)

/-- The oldest pending host action, taken off the list. -/
def fetch (s : State) : Fetched :=
  match s.bus with
  | [] => .idle
  | h :: rest =>
    match State.select h.target { s with bus := rest } with
    | none => .ended (.refused .noSuchInstance)
    | some t => actOn h.act t

end Sys2Proof.Machine
end

