-- ==== Sys2Proof/Machine/Step.lean ====
section
/-!
DEFINITION. One step: the oldest pending host action, performed whole (spec/10_state.md R25, 20_memory.md R51). With
none pending the block "is idle and keeps all registers" (60_exceptions.md R157).
-/

namespace Sys2Proof.Machine

/-- One step. -/
def step (s : State) : Host.Outcome State Fault Refusal :=
  match fetch s with
  | .idle => .next s
  | .run i t => exec i t
  | .ended o => o

/-- The state with the bits of a table row put where the next step takes its instruction from: first in the host's
actions, addressed to the instance now addressed (log 7, log 9). -/
def State.withFetchWord (s : State) (nbits w : Nat) : State :=
  { s with bus := ⟨s.selected, .send (tableWord nbits w)⟩ :: s.bus }

end Sys2Proof.Machine
end

