-- ==== Sys2Proof/Machine/Assembler.lean ====
section
/-!
DEFINITION. The textual form of a host program: its lines (spec/30_encoding.md R66) and pseudo-instructions (R67), and
the transactions they stand for. "Notation only" (92_eei_decisions.md D13): no step uses this file.
-/

namespace Sys2Proof.Machine

/-- The pseudo-instructions (R67); an operand is a value as a line writes it. -/
inductive Pseudo where
  | command (c : Command)
  | taReq (f c s : Int)
  | foReq (f : Int)
  | buf (d c : Int)
  | pq (n : Int)
  | scbin (k : Int)
  | talkup (t k : Int)
  deriving DecidableEq, Repr

/-- The record of `WR`: register number, value (R65, R66). -/
def asmWr (reg : Nat) (v : Int) : Record := encodeRecord true (BitVec.ofNat 8 (4 * reg)) (u32 v)

/-- The record of `RD` (R65, R66). -/
def asmRd (reg : Nat) : Record := encodeRecord false (BitVec.ofNat 8 (4 * reg)) 0

/-- The record of a bare command: a write to `CMD`. -/
def asmCommand (c : Command) : Record := encodeRecord true 0 (encodeCommand c)

/-- The expansion of each pseudo-instruction (R67). -/
def Pseudo.expand : Pseudo → List Record
  | .command c => [asmCommand c]
  | .taReq f c s => [asmWr 2 f, asmWr 3 c, asmWr 4 s]
  | .foReq f => [asmWr 2 f]
  | .buf d c => [asmWr 7 d, asmWr 8 c]
  | .pq n => [asmWr 5 n, asmCommand .pq]
  | .scbin k => [asmWr 5 k, asmCommand .scbin]
  | .talkup t k => [asmWr 5 t, asmWr 6 k, asmCommand .talkup]

/-- Host actions that put records to the instance `j`, in order. -/
def toInstance (j : Nat) (rs : List Record) : List HostStep := rs.map fun r => ⟨j, .send (.bus41 r)⟩

/-- The register names (10_state.md R10). -/
def registerNumbers : List (List Char × Nat) :=
  [(['C', 'M', 'D'], 0), (['S', 'T', 'A', 'T', 'U', 'S'], 1), (['F', 'F', 'T', 'S', 'I', 'Z', 'E'], 2),
   (['C', 'P', 'L', 'E', 'N'], 3), (['N', 'U', 'M', 'S', 'C'], 4), (['A', 'R', 'G', '0'], 5),
   (['A', 'R', 'G', '1'], 6), (['D', 'S', 'T'], 7), (['C', 'A', 'P'], 8),
   (['R', 'E', 'S', '_', 'C', 'O', 'S'], 9), (['R', 'E', 'S', '_', 'S', 'I', 'N'], 10),
   (['R', 'E', 'S', '_', 'I', 'D', 'X'], 11)]

/-- The mnemonics of the commands (R61). -/
def commandNames : List (List Char × Command) :=
  [(['N', 'O', 'P'], .nop), (['P', 'Q'], .pq), (['S', 'C', 'B', 'I', 'N'], .scbin),
   (['T', 'A', 'L', 'K', 'U', 'P'], .talkup), (['T', 'A', 'G', 'E', 'N'], .tagen), (['F', 'O', 'G', 'E', 'N'], .fogen)]

/-- The entry of a name. -/
def entryOf {α : Type} (name : List Char) : List (List Char × α) → Option α
  | [] => none
  | (n, a) :: rest => if n = name then some a else entryOf name rest

/-- The value of a digit. -/
def digitOf (c : Char) : Option Nat :=
  if 48 ≤ c.toNat ∧ c.toNat ≤ 57 then some (c.toNat - 48)
  else if 65 ≤ c.toNat ∧ c.toNat ≤ 70 then some (c.toNat - 55)
  else if 97 ≤ c.toNat ∧ c.toNat ≤ 102 then some (c.toNat - 87)
  else none

/-- The number that digits of a base write, after the digits that gave `acc`. -/
def digitsValue (base acc : Nat) : List Char → Option Nat
  | [] => some acc
  | c :: rest =>
    match digitOf c with
    | some d => if d < base then digitsValue base (acc * base + d) rest else none
    | none => none

/-- The number that one digit or more write. -/
def number (base : Nat) (cs : List Char) : Option Nat := if cs = [] then none else digitsValue base 0 cs

/-- `<value>` (R66): a decimal integer, optionally negative, or a hexadecimal literal of at most 8 digits. -/
def parseValue : List Char → Option Int
  | '-' :: ds => (number 10 ds).map fun n => -(n : Int)
  | '0' :: 'x' :: hs => if hs.length ≤ 8 then (number 16 hs).map Int.ofNat else none
  | ds => (number 10 ds).map Int.ofNat

/-- `<reg>` (R66): a register name, or an offset written `@0x..`; the answer is a register number. -/
def parseReg : List Char → Option Nat
  | '@' :: '0' :: 'x' :: hs =>
    match number 16 hs with
    | some off => if off % 4 = 0 ∧ off < 256 then some (off / 4) else none
    | none => none
  | name => entryOf name registerNumbers

/-- The words of a line: separated by spaces and commas, up to a `;`, which starts a comment. -/
def wordsOf : List Char → List Char → List (List Char)
  | cur, [] => if cur = [] then [] else [cur.reverse]
  | cur, c :: rest =>
    if c = ';' then (if cur = [] then [] else [cur.reverse])
    else if c = ' ' ∨ c = ',' then (if cur = [] then wordsOf [] rest else cur.reverse :: wordsOf [] rest)
    else wordsOf (c :: cur) rest

/-- A line of a program: the records it stands for, and the value an `RD` line expects after `=>`, "a check made by the
test, not part of the transaction" (R66). -/
structure AsmLine where
  records : List Record
  expected : Option Word
  deriving DecidableEq, Repr

/-- The pseudo-instruction with these words (R67). -/
def parsePseudo : List (List Char) → Option Pseudo
  | [m] => (entryOf m commandNames).map .command
  | [m, a] =>
    match parseValue a with
    | some v =>
      if m = ['F', 'O', 'R', 'E', 'Q'] then some (.foReq v)
      else if entryOf m commandNames = some .pq then some (.pq v)
      else if entryOf m commandNames = some .scbin then some (.scbin v)
      else none
    | none => none
  | [m, a, b] =>
    match parseValue a, parseValue b with
    | some v, some w =>
      if m = ['B', 'U', 'F'] then some (.buf v w)
      else if entryOf m commandNames = some .talkup then some (.talkup v w)
      else none
    | _, _ => none
  | [m, a, b, c] =>
    match parseValue a, parseValue b, parseValue c with
    | some u, some v, some w => if m = ['T', 'A', 'R', 'E', 'Q'] then some (.taReq u v w) else none
    | _, _, _ => none
  | _ => none

/-- The line with these words (R66, R67); none where they are no line of the assembler. -/
def parseWords : List (List Char) → Option AsmLine
  | [] => some ⟨[], none⟩
  | [['W', 'R'], r, v] =>
    match parseReg r, parseValue v with
    | some i, some x => some ⟨[asmWr i x], none⟩
    | _, _ => none
  | [['R', 'D'], r] => (parseReg r).map fun i => ⟨[asmRd i], none⟩
  | [['R', 'D'], r, ['=', '>'], v] =>
    match parseReg r, parseValue v with
    | some i, some x => some ⟨[asmRd i], some (u32 x)⟩
    | _, _ => none
  | ws => (parsePseudo ws).map fun p => ⟨p.expand, none⟩

/-- One line of text. -/
def parseLine (line : List Char) : Option AsmLine := parseWords (wordsOf [] line)

end Sys2Proof.Machine
end

