-- ==== Sys2Proof/Safety.lean ====
section
/-!
DEFINITION. The terms claims are stated in: the real-number functions the spec defines the quantizer by
(spec/00_scope.md R7, R8), the properties every admissible quantizer has (40_quantizer.md R84), and the states a
platform that meets the spec can be in.
-/

namespace Sys2Proof.Machine

/-- `sgn(x)` (R7). -/
noncomputable def sgn (x : ℝ) : ℤ := if 0 < x then 1 else if x < 0 then -1 else 0

/-- `Q15R(x)` (R7): round half away from zero, scaled. -/
noncomputable def q15R (x : ℝ) : ℤ := sgn x * ⌊|x| * 32767 + 1 / 2⌋

/-- The angle `2 pi n / N` (R8). -/
noncomputable def angle (n N : ℤ) : ℝ := 2 * Real.pi * n / N

/-- `PhaseQ(n, N)` as R8 defines it, with the real-number functions. -/
noncomputable def exactPhase (n N : ℤ) : Sample :=
  ⟨q15R (Real.cos (angle n N)), q15R (Real.sin (angle n N))⟩

/-- The properties R84 names of every admissible `Quantize`, with the error bound `e` of an implementation. (P-pure) is
that a `Quantizer` is a function. -/
structure Quantizer.Admissible (e : ℝ) (q : Quantizer) : Prop where
  /-- (P-range) -/
  range : ∀ n N, 0 < N → -32767 ≤ (q n N).cos ∧ (q n N).cos ≤ 32767 ∧ -32767 ≤ (q n N).sin ∧ (q n N).sin ≤ 32767
  /-- (P-period) -/
  period : ∀ n N, 0 < N → q n N = q (wrap n N) N
  /-- (P-zero) -/
  zero : ∀ N, 0 < N → q 0 N = ⟨32767, 0⟩
  /-- (P-quadrant), `j = 1` -/
  quadrant1 : ∀ n N, 0 < N → 4 * wrap n N = N → q n N = ⟨0, 32767⟩
  /-- (P-quadrant), `j = 2` -/
  quadrant2 : ∀ n N, 0 < N → 4 * wrap n N = 2 * N → q n N = ⟨-32767, 0⟩
  /-- (P-quadrant), `j = 3` -/
  quadrant3 : ∀ n N, 0 < N → 4 * wrap n N = 3 * N → q n N = ⟨0, -32767⟩
  /-- (P-near), cosine -/
  nearCos : ∀ n N, 0 < N → |((q n N).cos : ℝ) - 32767 * Real.cos (angle n N)| ≤ 1 / 2 + e
  /-- (P-near), sine -/
  nearSin : ∀ n N, 0 < N → |((q n N).sin : ℝ) - 32767 * Real.sin (angle n N)| ≤ 1 / 2 + e

/-- (P-conj) of R84 at the denominator `N`: `Quantize(-n, N) = (c, -s)`. -/
def Quantizer.Conj (N : ℤ) (q : Quantizer) : Prop :=
  ∀ n, q (-n) N = ⟨(q n N).cos, -(q n N).sin⟩

/-- (P-half) of R84 at the denominator `N`: `Quantize(n + N/2, N) = (-c, -s)` for even `N`. -/
def Quantizer.Half (N : ℤ) (q : Quantizer) : Prop :=
  N % 2 = 0 → ∀ n, q (n + N / 2) N = ⟨-(q n N).cos, -(q n N).sin⟩

/-- (P-quarter) of R84 at the denominator `N`: `Quantize(n + N/4, N) = (-s, c)` for `N` divisible by 4. -/
def Quantizer.Quarter (N : ℤ) (q : Quantizer) : Prop :=
  N % 4 = 0 → ∀ n, q (n + N / 4) N = ⟨-(q n N).sin, (q n N).cos⟩

/-- `p` is the platform's phase sample of the angle `n/N`: what its quantizer gives (R81), whole turns dropped or not
(P-period of R84), and with the default quantizer the real-number sample of R8. -/
def IsSample (s : State) (n N : Int) (p : Sample) : Prop :=
  p = s.quantizer n N ∧ p = s.quantizer (n % N) N ∧ (s.quant = [] → p = exactPhase n N)

/-- `STATUS` holds the result of some command: a cause other than the reserved `IDX_RANGE` (10_state.md R12, R143). -/
def legalStatus (w : Word) : Prop := ∃ c : Cause, c ≠ .idxRange ∧ w = statusWord c

/-- What the spec says of the read-only registers of an instance: R12 of `STATUS`, R20 and R21 of the sample registers,
R22 of the index register ("bit 31 is 0"). The request and operand registers may hold anything (R13). -/
structure Regs.Inv (r : Regs) : Prop where
  status : legalStatus r.status
  cos : -32767 ≤ r.resCos.toInt ∧ r.resCos.toInt ≤ 32767
  sin : -32767 ≤ r.resSin.toInt ∧ r.resSin.toInt ≤ 32767
  idx : r.resIdx.getLsbD 31 = false

/-- What R6 asks of the open parameters. `Quantize` is admissible whatever the list (log 19), and `TM_INIT` may be
anything. -/
def Params.Legal (p : Params) : Prop := (∃ e, e ≤ 30 ∧ p.maxFft = 2 ^ e) ∧ 1 ≤ p.nInst

/-- The states of a platform that meets the spec: every instance's registers, table memory in its one form with no cell
ever changed to `0x8000` (20_memory.md R42; a cell that `TM_INIT` gives `0x8000` is not listed), MAX_FFT as R6
constrains it. -/
structure State.Inv (s : State) : Prop where
  regs : ∀ r ∈ s.instances, r.Inv
  tm : TableMemory.wf s.tmInit s.tm
  cells : ∀ x ∈ s.tm, x.2 ≠ 0x8000
  maxFft : ∃ e, e ≤ 30 ∧ s.maxFft = 2 ^ e

/-! Requests, as the data model constrains them -/

/-- The formula of the bin function (R90). -/
def centredBin (N NSC k : Int) : Int := if k < NSC / 2 then k + (N - NSC / 2) else k - NSC / 2

/-- The domain of the bin function (R90): `NSC` even, `0 < NSC <= N`, `k` in `[0, NSC)`. -/
def BinDomain (N NSC k : Int) : Prop := NSC % 2 = 0 ∧ 0 < NSC ∧ NSC ≤ N ∧ 0 ≤ k ∧ k < NSC

/-- `ValidTA` (R103). -/
def ValidTA (r : Regs) : Prop :=
  0 < r.fftN ∧ (∃ e : Nat, r.fftN = 2 ^ e) ∧ 0 ≤ r.cp ∧ 0 < r.nsc ∧ r.nsc % 2 = 0 ∧ r.nsc ≤ r.fftN

open Classical in
/-- The `STATUS` that `CheckTA` ends an invalid request with: its checks in the order of R103, its numbers of R141. -/
noncomputable def taStatus (r : Regs) : Word :=
  if r.fftN ≤ 0 then 0x101
  else if ¬∃ e : Nat, r.fftN = 2 ^ e then 0x201
  else if r.cp < 0 then 0x401
  else if r.nsc ≤ 0 then 0x501
  else if r.nsc % 2 = 1 then 0x601
  else 0x701

/-- What the resource checks of TAGEN ask for (R105). -/
def ResourceTA (s : State) : Prop :=
  s.regs.fftN ≤ s.maxFft ∧ (2 * s.regs.cp + 1) * s.regs.nsc ≤ s.regs.capPairs ∧
  s.regs.d + 2 * ((2 * s.regs.cp + 1) * s.regs.nsc) ≤ 2 ^ 32

/-- `ValidFO` (R120). -/
def ValidFO (r : Regs) : Prop := 0 < r.fftN ∧ r.fftN ≤ 32767

/-- What the resource checks of FOGEN ask for (R121). -/
def ResourceFO (r : Regs) : Prop := 16 * r.fftN ≤ r.capPairs ∧ r.d + 2 * (16 * r.fftN) ≤ 2 ^ 32

/-- The registers a command reads: the column "reads" of R62, by number. -/
def commandReads : Command → List Nat
  | .nop => []
  | .pq => [2, 5]
  | .scbin => [2, 4, 5]
  | .talkup => [2, 3, 4, 5, 6]
  | .tagen => [2, 3, 4, 7, 8]
  | .fogen => [2, 7, 8]

/-- The registers a command writes on success, beside `STATUS`: the column "writes on success" of R62, by number. -/
def commandWrites : Command → List Nat
  | .nop => []
  | .pq => [9, 10, 11]
  | .scbin => [11]
  | .talkup => [9, 10, 11]
  | .tagen => []
  | .fogen => []

/-- The instruction ends with `STATUS = w` and no other effect (R150). -/
def Ends (i : Instr) (s : State) (w : Word) : Prop :=
  exec i s = .next { s with regs := { s.regs with status := w } }

end Sys2Proof.Machine
end

