-- ==== Sys2Proof/Certificates/Slice0/Obligations.lean ====
section
/-!
DEFINITION. The statements for the provers. Each docstring names the rule of spec/ it formalises.
-/

open Sys2Proof Sys2Proof.Machine

/-! ## Encoding -/

/-- Decoding undoes encoding, for every well-formed instruction and every operand (30_encoding.md R61, R65). -/
def Obligations.DecodeOfEncode : Prop :=
  ∀ i : Instr, i.wf = true → decode (encode i) = .ok i

/-- Encoding undoes decoding: no two words on the interface are one instruction, and no bit of a record is dropped
(30_encoding.md R61, R65). -/
def Obligations.EncodeOfDecode : Prop :=
  ∀ (w : BusWord) (i : Instr), decode w = .ok i → encode i = w

/-- R61: "A word `w` is command `M` exactly when `w` equals the value in the `word` column". -/
def Obligations.OpcodeMapIsExact : Prop :=
  ∀ w : Word,
    (decode (.cmd32 w) = .ok .nop ↔ w = 0x00000000) ∧ (decode (.cmd32 w) = .ok .pq ↔ w = 0x00000001) ∧
    (decode (.cmd32 w) = .ok .scbin ↔ w = 0x00000002) ∧ (decode (.cmd32 w) = .ok .talkup ↔ w = 0x00000003) ∧
    (decode (.cmd32 w) = .ok .tagen ↔ w = 0x00000010) ∧ (decode (.cmd32 w) = .ok .fogen ↔ w = 0x00000011)

/-- Words R61 prints, and records R65 and 95_test_vectors.md print, are the instructions they stand for. -/
def Obligations.SpecWordsDecode : Prop :=
  decode (.cmd32 0x00000000) = .ok .nop ∧ decode (.cmd32 0x00000001) = .ok .pq ∧
  decode (.cmd32 0x00000002) = .ok .scbin ∧ decode (.cmd32 0x00000003) = .ok .talkup ∧
  decode (.cmd32 0x00000010) = .ok .tagen ∧ decode (.cmd32 0x00000011) = .ok .fogen ∧
  decode (.bus41 0x10800000004) = .ok (.wr 0x08 0x00000004) ∧
  decode (.bus41 0x10CFFFFFFFF) = .ok (.wr 0x0C 0xFFFFFFFF) ∧
  decode (.bus41 0x00400000000) = .ok (.rd 0x04)

/-- R63: a command word with `RSV != 0`, whatever its `OPC`, ends with BAD_RSV; one with `RSV = 0` and an unassigned
`OPC` ends with BAD_OPCODE; "An illegal word changes nothing but `STATUS`". -/
def Obligations.IllegalCommandWords : Prop :=
  ∀ (s : State) (w : Word),
    (256 ≤ w.toNat → Ends (.wr 0x00 w) s 0x00003104) ∧
    (w.toNat < 256 → w.toNat ∉ [0x00, 0x01, 0x02, 0x03, 0x10, 0x11] → Ends (.wr 0x00 w) s 0x00003004)

/-- R24, R65: an access that is not aligned, and a read record with `DATA != 0`, is no transaction; the model refuses
it, as an instruction and as a record on the interface. -/
def Obligations.NoTransactionIsRefused : Prop :=
  (∀ (s : State) (off : Offset) (data : Word), off.toNat % 4 ≠ 0 →
    exec (.wr off data) s = .refused .unalignedAccess ∧ exec (.rd off) s = .refused .unalignedAccess) ∧
  (∀ (s : State) (r : Record) (rest : List HostStep), s.bus = ⟨s.selected, .send (.bus41 r)⟩ :: rest →
    ((recordOff r).toNat % 4 ≠ 0 → step s = .refused .unalignedAccess) ∧
    ((recordOff r).toNat % 4 = 0 → recordWe r = false → recordData r ≠ 0 → step s = .refused .readWithData))

/-- R67: each pseudo-instruction expands to the host writes of its row, in the order shown; a command mnemonic with no
operand "is the bare `CMD` write". -/
def Obligations.PseudoInstructionsAreWrites : Prop :=
  let writes (p : Pseudo) (l : List (Offset × Word)) : Prop :=
    (p.expand.map fun r => decode (.bus41 r)) = l.map fun x => .ok (.wr x.1 x.2)
  writes (.command .nop) [(0x00, 0x00000000)] ∧ writes (.command .pq) [(0x00, 0x00000001)] ∧
  writes (.command .scbin) [(0x00, 0x00000002)] ∧ writes (.command .talkup) [(0x00, 0x00000003)] ∧
  writes (.command .tagen) [(0x00, 0x00000010)] ∧ writes (.command .fogen) [(0x00, 0x00000011)] ∧
  (∀ f c s : Int, writes (.taReq f c s) [(0x08, u32 f), (0x0C, u32 c), (0x10, u32 s)]) ∧
  (∀ f : Int, writes (.foReq f) [(0x08, u32 f)]) ∧
  (∀ d c : Int, writes (.buf d c) [(0x1C, u32 d), (0x20, u32 c)]) ∧
  (∀ n : Int, writes (.pq n) [(0x14, u32 n), (0x00, 0x00000001)]) ∧
  (∀ k : Int, writes (.scbin k) [(0x14, u32 k), (0x00, 0x00000002)]) ∧
  (∀ t k : Int, writes (.talkup t k) [(0x14, u32 t), (0x18, u32 k), (0x00, 0x00000003)])

/-! ## Steps, instances, reset -/

/-- A step takes the oldest host action off the list, addresses its instance, and runs exactly the instruction its word
decodes to (10_state.md R25, 20_memory.md R51). -/
def Obligations.StepRunsDecodedInstruction : Prop :=
  ∀ (s t : State) (j : Nat) (w : BusWord) (rest : List HostStep) (i : Instr),
    s.bus = ⟨j, .send w⟩ :: rest → State.select j { s with bus := rest } = some t → decode w = .ok i →
    step s = exec i t

/-- What the host's placement of a table row does: the next step runs the row's instruction on the state as it was. -/
def Obligations.PlacedWordRuns : Prop :=
  ∀ (s : State) (nbits w : Nat) (i : Instr), decodeTableWord nbits w = some i →
    step (s.withFetchWord nbits w) = exec i s

/-- "A host write of the 32-bit word `w` to `CMD` is the issue of command `w`" (R11): a command word handed to an
instance and a write of that word to `CMD` do the same, for every word, legal or not; and the write of a command's word
is that command. -/
def Obligations.CommandWordIsCmdWrite : Prop :=
  (∀ (s t : State) (j : Nat) (w : Word) (rest : List HostStep),
    s.bus = ⟨j, .send (.cmd32 w)⟩ :: rest → State.select j { s with bus := rest } = some t →
    step s = exec (.wr 0x00 w) t) ∧
  (∀ (s : State) (c : Command), exec (.wr 0x00 (encodeCommand c)) s = exec c.toInstr s)

/-- Between host actions the block "is idle and keeps all registers" (60_exceptions.md R157). -/
def Obligations.IdleStepKeepsEverything : Prop :=
  ∀ s : State, s.bus = [] → step s = .next s

/-- A host action on an instance the platform has is performed on that instance's registers: on the state `t` that
differs from `s` in having that instance addressed and the action taken off the list, the step runs the instruction,
answers the word that is none, or resets. On an instance the platform has not, the model refuses (10_state.md R31,
60_exceptions.md R160). -/
def Obligations.ActionReachesItsInstance : Prop :=
  ∀ (s : State) (j : Nat) (act : HostAct) (rest : List HostStep), s.bus = ⟨j, act⟩ :: rest →
    (∀ r, s.instances[j]? = some r → ∃ t, State.select j { s with bus := rest } = some t ∧
      t.regs = r ∧ t.selected = j ∧ t.instances = s.instances ∧ t.tm = s.tm ∧ t.maxFft = s.maxFft ∧
      t.quant = s.quant ∧ t.tmInit = s.tmInit ∧ t.bus = rest ∧ t.reads = s.reads ∧
      (act = .reset → step s = .next t.resetBlock) ∧
      (∀ w i, act = .send w → decode w = .ok i → step s = exec i t) ∧
      (∀ w e, act = .send w → decode w = .error e → step s = answerUndecoded e t)) ∧
    (s.instances.length ≤ j → step s = .refused .noSuchInstance)

/-- "All state of this file is per instance" (R31): a step changes the registers of no instance but the one it
addresses, and never the number of instances or another open parameter of R6. -/
def Obligations.OtherInstancesUntouched : Prop :=
  ∀ (s t : State) (h : HostStep) (rest : List HostStep), s.bus = h :: rest → step s = .next t →
    t.bus = rest ∧ t.maxFft = s.maxFft ∧ t.quant = s.quant ∧ t.tmInit = s.tmInit ∧
    t.instances.length = s.instances.length ∧
    ∀ j, j ≠ h.target → t.instances[j]? = s.instances[j]?

/-- The reset input as a host action (70_reset_and_hazards.md R170, R171): it clears its instance and nothing else. -/
def Obligations.ResetClearsRegistersKeepsMemory : Prop :=
  ∀ (s t : State) (j : Nat) (rest : List HostStep),
    s.bus = ⟨j, .reset⟩ :: rest → State.select j { s with bus := rest } = some t →
    ∃ u, step s = .next u ∧ (∀ i, u.regs.read i = 0) ∧ u.tm = s.tm ∧
      u.before = t.before ∧ u.after = t.after ∧ u.maxFft = s.maxFft ∧ u.quant = s.quant ∧ u.tmInit = s.tmInit ∧
      u.bus = rest ∧ u.reads = s.reads

/-- R30: after reset, of the machine or of one instance, every register that stores a value holds 0 and table memory is
as it was; with these values every command but NOP fails. -/
def Obligations.RegistersAreZeroAfterReset : Prop :=
  ∀ s : State, (∀ i, State.reset.regs.read i = 0 ∧ s.resetBlock.regs.read i = 0) ∧ s.resetBlock.tm = s.tm ∧
    ∀ c : Command, c ≠ .nop → Ends c.toInstr State.reset 0x00000101 ∧ Ends c.toInstr s.resetBlock 0x00000101

/-- R6: the model takes the open parameters as an argument. Whatever legal values they have, the platform after reset has
`N_INST` instances with every register 0, the given MAX_FFT and Quantize, in every cell what TM_INIT gives it, and meets
the invariant. -/
def Obligations.PowerOnTakesTheParameters : Prop :=
  ∀ p : Params, p.Legal →
    (State.powerOn p).Inv ∧ (State.powerOn p).instances.length = p.nInst ∧
    (∀ r ∈ (State.powerOn p).instances, ∀ i, r.read i = 0) ∧ (State.powerOn p).maxFft = p.maxFft ∧
    (State.powerOn p).quantizer = quantize p.quant ∧
    (∀ a, TableMemory.read (State.powerOn p).tmInit a (State.powerOn p).tm = p.tmInit.cell a) ∧
    (State.powerOn p).bus = [] ∧ (State.powerOn p).reads = []

/-- The state after reset has the values R6 suggests: MAX_FFT `2^30`, the default quantizer, one instance, every cell
`0x8000` (the choice of these values is log 1, log 3, log 4, log 5). -/
def Obligations.ResetHasTheSuggestedParameters : Prop :=
  State.reset.maxFft = 2 ^ 30 ∧ (∀ n N, State.reset.quantizer n N = phaseQ n N) ∧
  State.reset.instances.length = 1 ∧ ∀ a, TableMemory.read State.reset.tmInit a State.reset.tm = 0x8000

/-- R6 lets TM_INIT be any contents: each is the contents some value of the parameter gives the `2^32` cells. -/
def Obligations.TmInitMayBeAnything : Prop :=
  ∀ f : Nat → Cell, ∃ init : TableInit, ∀ a, a < 2 ^ 32 → init.cell a = f a

/-- The states of a platform that meets the spec include the one after reset. -/
def Obligations.InvariantHoldsAtReset : Prop := State.reset.Inv

/-- Every step keeps the invariant: each `STATUS` is that of some command's result and never INTERNAL (R12, R143), each
sample register lies in `[-32767, 32767]` (R20, R21), bit 31 of each index register is 0 (R22), table memory keeps its
one form with no cell changed to `0x8000` (R42), MAX_FFT stays a power of two up to `2^30` (R6). -/
def Obligations.StepKeepsInvariant : Prop :=
  ∀ s t : State, s.Inv → step s = .next t → t.Inv

/-! ## The quantizer -/

/-- R9: `wrap(x, N)` is the unique `r` in `[0, N)` with `x - r` divisible by `N`; `rem` has the sign of the dividend;
`ispow2` is true of the powers of two alone. -/
def Obligations.WrapIsFloorModulo : Prop :=
  (∀ x N : Int, 0 < N → 0 ≤ wrap x N ∧ wrap x N < N ∧ N ∣ x - wrap x N ∧
    (∀ r, 0 ≤ r → r < N → N ∣ x - r → r = wrap x N)) ∧
  (∀ x N : Int, 0 < N → N ∣ x - rem x N ∧ |rem x N| < N ∧ (0 ≤ x → 0 ≤ rem x N) ∧ (x ≤ 0 → rem x N ≤ 0)) ∧
  (∀ N : Int, isPow2 N = true ↔ ∃ e : Nat, N = 2 ^ e)

/-- R8, R81: the default quantizer (the one of State.reset) is the exact real-number `PhaseQ`, at every numerator and
every positive denominator. (The machine's evaluator is the model's choice, log 2; that it computes R8's function is what
is stated here.) -/
def Obligations.QuantizerIsExactPhase : Prop :=
  ∀ n N : Int, 0 < N → quantize [] n N = exactPhase n N

/-- R84: the default quantizer has every named property, with error bound 0, and in addition those of `PhaseQ`:
(P-conj), (P-half) and (P-quarter). -/
def Obligations.QuantizerHasItsProperties : Prop :=
  Quantizer.Admissible 0 (quantize []) ∧ ∀ N, 0 < N → Quantizer.Conj N (quantize []) ∧
    Quantizer.Half N (quantize []) ∧ Quantizer.Quarter N (quantize [])

/-- Every quantizer a platform of this model can have is one that R6 and R84 admit, with any error bound that its listed
samples meet. That a quantizer is a list of samples that differ from `PhaseQ`, and that an entry R84 does not admit
counts for nothing, is the model's choice (log 19). -/
def Obligations.EveryListedQuantizerIsAdmissible : Prop :=
  ∀ (l : List QuantEntry) (e : ℝ), 0 ≤ e →
    (∀ x ∈ l, 0 < x.den → |(x.sample.cos : ℝ) - 32767 * Real.cos (angle x.num x.den)| ≤ 1 / 2 + e ∧
      |(x.sample.sin : ℝ) - 32767 * Real.sin (angle x.num x.den)| ≤ 1 / 2 + e) →
    Quantizer.Admissible e (quantize l)

/-- R6, R84: "Every admissible" Quantize is the quantizer of some platform of this model: it agrees with that of some
value of the parameter at every numerator and at every denominator a register can hold (R13). -/
def Obligations.EveryAdmissibleQuantizerIsTaken : Prop :=
  ∀ (e : ℝ) (q : Quantizer), Quantizer.Admissible e q →
    ∃ l : List QuantEntry, ∀ n N : Int, 0 < N → N < 2 ^ 31 → quantize l n N = q n N

/-- R82: at the ties the rounding of the default quantizer goes away from zero. -/
def Obligations.QuantizerTies : Prop :=
  ∀ n N : Int, 0 < N →
    (6 * wrap n N = N ∨ 6 * wrap n N = 5 * N → (quantize [] n N).cos = 16384) ∧
    (3 * wrap n N = N ∨ 3 * wrap n N = 2 * N → (quantize [] n N).cos = -16384) ∧
    (12 * wrap n N = N ∨ 12 * wrap n N = 5 * N → (quantize [] n N).sin = 16384) ∧
    (12 * wrap n N = 7 * N ∨ 12 * wrap n N = 11 * N → (quantize [] n N).sin = -16384)

/-- R80, PQ: with `N > 0` it completes, with the sample of `n/N` (with the default quantizer the rounded cosine and sine
of `2 pi n / N`) and the reduced numerator, and changes nothing else; with `N <= 0` it ends with FFT_NONPOS. -/
def Obligations.PqQuantizesItsAngle : Prop :=
  decode (.cmd32 0x00000001) = .ok .pq ∧
  ∀ s : State,
    (s.regs.fftN ≤ 0 → Ends .pq s 0x00000101) ∧
    (0 < s.regs.fftN → ∃ (p : Sample) (c sn ix : Word),
      exec .pq s = .next { s with regs := { s.regs with resCos := c, resSin := sn, resIdx := ix, status := 0 } } ∧
      IsSample s s.regs.a0 s.regs.fftN p ∧ c.toInt = p.cos ∧ sn.toInt = p.sin ∧
      ix.toInt = wrap s.regs.a0 s.regs.fftN)

/-! ## The remapper -/

/-- R90, R93: the bin function has its formula on its domain, and no value outside it. -/
def Obligations.BinHasItsFormula : Prop :=
  ∀ N NSC k : Int, (BinDomain N NSC k → bin N NSC k = some (centredBin N NSC k)) ∧
    (¬BinDomain N NSC k → bin N NSC k = none)

/-- R92: on its domain `bin` stays in `[0, N)`, is injective, sends the first half to the bins `N-H .. N-1` and the
second to `0 .. H-1` in order, sends `H` to 0, is the half-swap when `NSC = N`, and is `wrap(k - H, N)`. -/
def Obligations.BinIsCentredBijection : Prop :=
  ∀ N NSC : Int, NSC % 2 = 0 → 0 < NSC → NSC ≤ N →
    (∀ k, 0 ≤ k → k < NSC → ∃ b, bin N NSC k = some b ∧ 0 ≤ b ∧ b < N ∧
      (k < NSC / 2 → b = N - NSC / 2 + k) ∧ (NSC / 2 ≤ k → b = k - NSC / 2) ∧
      b = wrap (k - NSC / 2) N ∧ (NSC = N → b = (k + N / 2) % N)) ∧
    (∀ k k' b, bin N NSC k = some b → bin N NSC k' = some b → k = k') ∧
    bin N NSC (NSC / 2) = some 0

/-- R91, SCBIN: on an index in the domain it completes with the bin in RES_IDX and changes nothing else; otherwise it
ends with the first of its causes. -/
def Obligations.ScbinRemapsItsIndex : Prop :=
  decode (.cmd32 0x00000002) = .ok .scbin ∧
  ∀ s : State,
    (s.regs.fftN ≤ 0 → Ends .scbin s 0x00000101) ∧
    (0 < s.regs.fftN →
      (s.regs.nsc ≤ 0 → Ends .scbin s 0x00000501) ∧
      (0 < s.regs.nsc →
        (s.regs.nsc % 2 = 1 → Ends .scbin s 0x00000601) ∧
        (s.regs.nsc % 2 = 0 →
          (s.regs.nsc > s.regs.fftN → Ends .scbin s 0x00000701) ∧
          (s.regs.nsc ≤ s.regs.fftN →
            ((s.regs.a0 < 0 ∨ s.regs.nsc ≤ s.regs.a0) → Ends .scbin s 0x00000801) ∧
            (0 ≤ s.regs.a0 → s.regs.a0 < s.regs.nsc → ∃ ix : Word,
              exec .scbin s = .next { s with regs := { s.regs with resIdx := ix, status := 0 } } ∧
              ix.toInt = centredBin s.regs.fftN s.regs.nsc s.regs.a0)))))

/-! ## The timing-alignment commands -/

/-- R103: TALKUP and TAGEN end an invalid request with the first check of `CheckTA` that fails, and nothing else; a valid
one has `2 <= NSC <= N <= 2^30` and `0 <= CP <= 2^31 - 1`. -/
def Obligations.InvalidTimingRequestsRejected : Prop :=
  ∀ s : State,
    (¬ValidTA s.regs → Ends .talkup s (taStatus s.regs) ∧ Ends .tagen s (taStatus s.regs)) ∧
    (ValidTA s.regs → 2 ≤ s.regs.nsc ∧ s.regs.nsc ≤ s.regs.fftN ∧ s.regs.fftN ≤ 2 ^ 30 ∧
      0 ≤ s.regs.cp ∧ s.regs.cp ≤ 2 ^ 31 - 1)

/-- R100, R101, R109: the table index lies in `[0, N)` and differs from the full product by a multiple of `N`, for every
bin and timing offset, negative products included. -/
def Obligations.TableIndexInRange : Prop :=
  ∀ N b t : Int, 0 < N → 0 ≤ tableIndex N b t ∧ tableIndex N b t < N ∧ N ∣ b * t - tableIndex N b t

/-- R102, TALKUP on a valid request: the operand checks in their order, the check of MAX_FFT, and the lookup itself:
the index `(bin(k) t) mod N` and its sample (with the default quantizer that of the angle `2 pi bin(k) t / N`), nothing
else changed. -/
def Obligations.TalkupLooksUpItsEntry : Prop :=
  decode (.cmd32 0x00000003) = .ok .talkup ∧
  ∀ s : State,
    (¬ValidTA s.regs → Ends .talkup s (taStatus s.regs)) ∧
    (ValidTA s.regs →
      ((s.regs.a0 < -s.regs.cp ∨ s.regs.cp < s.regs.a0) → Ends .talkup s 0x00000801) ∧
      (-s.regs.cp ≤ s.regs.a0 → s.regs.a0 ≤ s.regs.cp →
        ((s.regs.a1 < 0 ∨ s.regs.nsc ≤ s.regs.a1) → Ends .talkup s 0x00000901) ∧
        (0 ≤ s.regs.a1 → s.regs.a1 < s.regs.nsc →
          (s.maxFft < s.regs.fftN → Ends .talkup s 0x00001002) ∧
          (s.regs.fftN ≤ s.maxFft → ∃ (p : Sample) (c sn ix : Word),
            exec .talkup s =
              .next { s with regs := { s.regs with resCos := c, resSin := sn, resIdx := ix, status := 0 } } ∧
            ix.toInt = (centredBin s.regs.fftN s.regs.nsc s.regs.a1 * s.regs.a0) % s.regs.fftN ∧
            IsSample s (centredBin s.regs.fftN s.regs.nsc s.regs.a1 * s.regs.a0) s.regs.fftN p ∧
            c.toInt = p.cos ∧ sn.toInt = p.sin))))

/-- R107: at timing offset 0, and at the DC subcarrier `NSC/2` for every offset, TALKUP that completes leaves the
identity sample `(32767, 0)` and index 0. -/
def Obligations.TimingIdentityAtZero : Prop :=
  ∀ s : State, ValidTA s.regs → s.regs.fftN ≤ s.maxFft → -s.regs.cp ≤ s.regs.a0 → s.regs.a0 ≤ s.regs.cp →
    0 ≤ s.regs.a1 → s.regs.a1 < s.regs.nsc → (s.regs.a0 = 0 ∨ s.regs.a1 = s.regs.nsc / 2) →
    exec .talkup s = .next { s with regs := { s.regs with
      resCos := 0x00007FFF, resSin := 0x00000000, resIdx := 0x00000000, status := 0 } }

/-- R108: for opposite timing offsets the indices sum to 0 modulo `N`; and with the default quantizer, or any other that
has (P-conj), the samples are conjugate, without exception. -/
def Obligations.TimingConjugateSymmetry : Prop :=
  (∀ N b t : Int, 0 < N → tableIndex N b (-t) = wrap (N - tableIndex N b t) N) ∧
  (∀ s u s' u' : State, s'.regs = { s.regs with arg0 := -s.regs.arg0 } → s'.maxFft = s.maxFft →
    s'.quant = s.quant → (s.quant = [] ∨ Quantizer.Conj s.regs.fftN s.quantizer) →
    exec .talkup s = .next u → exec .talkup s' = .next u' → u.regs.status = 0 → u'.regs.status = 0 →
    u'.regs.resCos = u.regs.resCos ∧ u'.regs.resSin.toInt = -u.regs.resSin.toInt)

/-- The required capacity and the layout (20_memory.md R44): the pair numbers of the entries are `0 .. REQ - 1`, each
the number of exactly one entry. -/
def Obligations.TimingLayoutIsBijective : Prop :=
  ∀ CP NSC : Int, 0 ≤ CP → 0 < NSC →
    (∀ t k, -CP ≤ t → t ≤ CP → 0 ≤ k → k < NSC →
      (pairTA CP NSC t k : Int) = (t + CP) * NSC + k ∧ (pairTA CP NSC t k : Int) < (2 * CP + 1) * NSC) ∧
    (∀ p : Nat, (p : Int) < (2 * CP + 1) * NSC →
      ∃ tk : Int × Int, (-CP ≤ tk.1 ∧ tk.1 ≤ CP ∧ 0 ≤ tk.2 ∧ tk.2 < NSC ∧ pairTA CP NSC tk.1 tk.2 = p) ∧
        ∀ tk' : Int × Int, -CP ≤ tk'.1 → tk'.1 ≤ CP → 0 ≤ tk'.2 → tk'.2 < NSC →
          pairTA CP NSC tk'.1 tk'.2 = p → tk' = tk)

/-- R105, R106: TAGEN. An invalid request, then a request without the resources, ends it with the first check that
fails, in the order given, and writes nothing. Otherwise it completes: for every timing offset `t` and subcarrier `k`
the two cells of pair `(t + CP) NSC + k` hold the sample of `bin(k) t / N` (with the default quantizer the rounded cosine
and sine of `2 pi bin(k) t / N`); every cell outside `D .. D + 2 REQ - 1` keeps what it held; of the registers only STATUS
is written. -/
def Obligations.TagenWritesTheTable : Prop :=
  decode (.cmd32 0x00000010) = .ok .tagen ∧
  ∀ s : State,
    (¬ValidTA s.regs → Ends .tagen s (taStatus s.regs)) ∧
    (ValidTA s.regs →
      (s.maxFft < s.regs.fftN → Ends .tagen s 0x00001002) ∧
      (s.regs.fftN ≤ s.maxFft →
        ((s.regs.capPairs : Int) < (2 * s.regs.cp + 1) * s.regs.nsc → Ends .tagen s 0x00001102) ∧
        ((2 * s.regs.cp + 1) * s.regs.nsc ≤ (s.regs.capPairs : Int) →
          2 ^ 32 < s.regs.d + 2 * ((2 * s.regs.cp + 1) * s.regs.nsc) → Ends .tagen s 0x00001202)) ∧
      (ResourceTA s → ∃ m : TableMemory,
        exec .tagen s = .next { s with regs := { s.regs with status := 0 }, tm := m } ∧
        (∀ (t k : Int) (p : Nat), -s.regs.cp ≤ t → t ≤ s.regs.cp → 0 ≤ k → k < s.regs.nsc →
          (p : Int) = (t + s.regs.cp) * s.regs.nsc + k →
          ∃ q, IsSample s (centredBin s.regs.fftN s.regs.nsc k * t) s.regs.fftN q ∧
            TableMemory.read s.tmInit (s.regs.d + 2 * p) m = enc16 q.cos ∧
            TableMemory.read s.tmInit (s.regs.d + 2 * p + 1) m = enc16 q.sin) ∧
        (∀ a : Nat, (a < s.regs.d ∨ (s.regs.d : Int) + 2 * ((2 * s.regs.cp + 1) * s.regs.nsc) ≤ a) →
          TableMemory.read s.tmInit a m = TableMemory.read s.tmInit a s.tm)))

/-! ## The frequency-offset command -/

/-- R120, R121, R122: FOGEN. An invalid request, then a request without the resources, ends it with the first
check that fails, in the order given, and writes nothing. Otherwise it completes: for every sample `n` and lane `l` the
two cells of pair `16 n + l` hold the sample of `n/N` (with the default quantizer the rounded cosine and sine of
`2 pi n / N`); every cell outside `D .. D + 32 N - 1` keeps what it held; of the registers only STATUS is written. -/
def Obligations.FogenWritesTheTable : Prop :=
  decode (.cmd32 0x00000011) = .ok .fogen ∧
  ∀ s : State,
    (s.regs.fftN ≤ 0 → Ends .fogen s 0x00000101) ∧
    (32767 < s.regs.fftN → Ends .fogen s 0x00000301) ∧
    (ValidFO s.regs →
      ((s.regs.capPairs : Int) < 16 * s.regs.fftN → Ends .fogen s 0x00001102) ∧
      (16 * s.regs.fftN ≤ (s.regs.capPairs : Int) →
        2 ^ 32 < s.regs.d + 2 * (16 * s.regs.fftN) → Ends .fogen s 0x00001202) ∧
      (ResourceFO s.regs → ∃ m : TableMemory,
        exec .fogen s = .next { s with regs := { s.regs with status := 0 }, tm := m } ∧
        (∀ n l : Nat, (n : Int) < s.regs.fftN → l < 16 → ∃ q, IsSample s n s.regs.fftN q ∧
          TableMemory.read s.tmInit (s.regs.d + 2 * (16 * n + l)) m = enc16 q.cos ∧
          TableMemory.read s.tmInit (s.regs.d + 2 * (16 * n + l) + 1) m = enc16 q.sin) ∧
        (∀ a : Nat, (a < s.regs.d ∨ (s.regs.d : Int) + 2 * (16 * s.regs.fftN) ≤ a) →
          TableMemory.read s.tmInit a m = TableMemory.read s.tmInit a s.tm)))

/-- R81 and R85: with any function as their quantizer, the meanings of TAGEN and FOGEN write its samples: entry `(t, k)`
of the timing table is `Quantize(idx(t, k), N)`, sample `n` of the frequency table `Quantize(n, N)`. With the quantizer of
the platform they are what the machine runs. -/
def Obligations.TablesForAnyQuantizer : Prop :=
  (∀ s : State, execTagenWith s.quantizer s = exec .tagen s ∧ execFogenWith s.quantizer s = exec .fogen s) ∧
  ∀ (q : Quantizer) (s : State),
    (ValidTA s.regs → ResourceTA s → ∃ u, execTagenWith q s = .next u ∧
      ∀ (t k : Int) (p : Nat), -s.regs.cp ≤ t → t ≤ s.regs.cp → 0 ≤ k → k < s.regs.nsc →
        (p : Int) = (t + s.regs.cp) * s.regs.nsc + k →
        TableMemory.read s.tmInit (s.regs.d + 2 * p) u.tm = enc16
          (q ((centredBin s.regs.fftN s.regs.nsc k * t) % s.regs.fftN) s.regs.fftN).cos ∧
        TableMemory.read s.tmInit (s.regs.d + 2 * p + 1) u.tm = enc16
          (q ((centredBin s.regs.fftN s.regs.nsc k * t) % s.regs.fftN) s.regs.fftN).sin) ∧
    (ValidFO s.regs → ResourceFO s.regs → ∃ u, execFogenWith q s = .next u ∧
      ∀ n l : Nat, (n : Int) < s.regs.fftN → l < 16 →
        TableMemory.read s.tmInit (s.regs.d + 2 * (16 * n + l)) u.tm = enc16 (q n s.regs.fftN).cos ∧
        TableMemory.read s.tmInit (s.regs.d + 2 * (16 * n + l) + 1) u.tm = enc16 (q n s.regs.fftN).sin)

/-- R124, R125: after FOGEN completes, the 16 pairs of a sample are identical, the pairs of sample 0 are `(32767, 0)` and
so is the value one past the end; and with the default quantizer, or any other that has the property of R84 it rests on,
for even `N` a sample half a turn on is the negated one (P-half), and sample `N - n` is the conjugate of sample `n`
(P-conj). -/
def Obligations.FogenLanesAndPeriod : Prop :=
  ∀ s u : State, exec .fogen s = .next u → u.regs.status = 0 →
    let cosAt (n l : Nat) : Cell := TableMemory.read s.tmInit (s.regs.d + 2 * (16 * n + l)) u.tm
    let sinAt (n l : Nat) : Cell := TableMemory.read s.tmInit (s.regs.d + 2 * (16 * n + l) + 1) u.tm
    (∀ n l l' : Nat, (n : Int) < s.regs.fftN → l < 16 → l' < 16 → cosAt n l = cosAt n l' ∧ sinAt n l = sinAt n l') ∧
    (∀ l : Nat, l < 16 → cosAt 0 l = 0x7FFF ∧ sinAt 0 l = 0x0000) ∧
    s.quantizer s.regs.fftN s.regs.fftN = ⟨32767, 0⟩ ∧
    (s.quant = [] ∨ Quantizer.Half s.regs.fftN s.quantizer →
      ∀ n l h : Nat, (2 * h : Int) = s.regs.fftN → n < h → l < 16 →
        cosAt (n + h) l = -cosAt n l ∧ sinAt (n + h) l = -sinAt n l) ∧
    (s.quant = [] ∨ Quantizer.Conj s.regs.fftN s.quantizer →
      ∀ n n' l : Nat, (n + n' : Int) = s.regs.fftN → 0 < n → 0 < n' → l < 16 →
        cosAt n' l = cosAt n l ∧ sinAt n' l = -sinAt n l)

/-! ## NOP and host access -/

/-- R130: NOP completes in every state with `STATUS = 0`; nothing else changes. -/
def Obligations.NopClearsStatus : Prop :=
  decode (.cmd32 0x00000000) = .ok .nop ∧ ∀ s : State, Ends .nop s 0x00000000

/-- R131: a host write, case by case. To `CMD` it executes the command, or ends an illegal word with an error; to a
request or operand register it replaces all 32 bits and has no other effect; to a read-only register or a reserved
offset it does nothing. -/
def Obligations.WrDoesItsCase : Prop :=
  ∀ (s : State) (v : Word),
    (∀ i, decode (.cmd32 v) = .ok i → exec (.wr 0x00 v) s = exec i s) ∧
    (∀ e, decode (.cmd32 v) = .error e → Ends (.wr 0x00 v) s 0x00003104 ∨ Ends (.wr 0x00 v) s 0x00003004) ∧
    exec (.wr 0x08 v) s = .next { s with regs := { s.regs with fftSize := v } } ∧
    exec (.wr 0x0C v) s = .next { s with regs := { s.regs with cpLen := v } } ∧
    exec (.wr 0x10 v) s = .next { s with regs := { s.regs with numSc := v } } ∧
    exec (.wr 0x14 v) s = .next { s with regs := { s.regs with arg0 := v } } ∧
    exec (.wr 0x18 v) s = .next { s with regs := { s.regs with arg1 := v } } ∧
    exec (.wr 0x1C v) s = .next { s with regs := { s.regs with dst := v } } ∧
    exec (.wr 0x20 v) s = .next { s with regs := { s.regs with cap := v } } ∧
    (∀ off : Offset, off.toNat % 4 = 0 → (off = 0x04 ∨ 0x24 ≤ off.toNat) → exec (.wr off v) s = .next s)

/-- R132: a host read returns the register, 0 for `CMD` and for the reserved offsets, and changes nothing else; the
value goes to the end of the list of returned values (the model's own field, log 8). -/
def Obligations.RdReturnsTheRegister : Prop :=
  ∀ (s : State) (off : Offset), off.toNat % 4 = 0 → ∃ v : Word,
    exec (.rd off) s = .next { s with reads := s.reads ++ [v] } ∧
    (off = 0x00 → v = 0) ∧ (off = 0x04 → v = s.regs.status) ∧ (off = 0x08 → v = s.regs.fftSize) ∧
    (off = 0x0C → v = s.regs.cpLen) ∧ (off = 0x10 → v = s.regs.numSc) ∧ (off = 0x14 → v = s.regs.arg0) ∧
    (off = 0x18 → v = s.regs.arg1) ∧ (off = 0x1C → v = s.regs.dst) ∧ (off = 0x20 → v = s.regs.cap) ∧
    (off = 0x24 → v = s.regs.resCos) ∧ (off = 0x28 → v = s.regs.resSin) ∧ (off = 0x2C → v = s.regs.resIdx) ∧
    (0x30 ≤ off.toNat → v = 0)

/-- R132: the request registers read back exactly what the host last wrote: through any command that comes between. -/
def Obligations.RequestReadsBack : Prop :=
  ∀ (s t u : State) (off : Offset) (v : Word) (c : Command), off.toNat % 4 = 0 → 0x08 ≤ off.toNat →
    off.toNat ≤ 0x20 → exec (.wr off v) s = .next t → exec c.toInstr t = .next u →
    exec (.rd off) u = .next { u with reads := u.reads ++ [v] }

/-! ## Whole-machine rules -/

/-- Every well-formed instruction completes in every state: no command can stop the block (R150), `bin` is never asked
outside its domain (R93), and no write leaves table memory (R46, R50). That a bin asked outside the domain, or a write
beyond table memory, would show as a fault is the model's inference (log 15, log 16). -/
def Obligations.EveryInstructionCompletes : Prop :=
  ∀ (i : Instr) (s : State), i.wf = true → ∃ t, exec i s = .next t

/-- R150: whatever word is issued, where it ends with an error it writes `CAUSE * 256 + CODE` to `STATUS` and nothing
else changes. -/
def Obligations.FailedCommandOnlySetsStatus : Prop :=
  ∀ (w : Word) (s t : State), exec (.wr 0x00 w) s = .next t → t.regs.status ≠ 0 →
    ∃ c : Cause, c ≠ .none ∧ c ≠ .idxRange ∧
      t = { s with regs := { s.regs with status := BitVec.ofNat 32 (c.number * 256 + c.code.number) } }

/-- R12, R143: after a command `STATUS` has one of the codes OK, INVALID_CONFIG, RESOURCE, never INTERNAL; its bits 7:4
and 31:16 are 0; and `CAUSE` is 0 exactly when `CODE` is. -/
def Obligations.StatusAfterCommand : Prop :=
  ∀ (c : Command) (s t : State), exec c.toInstr s = .next t →
    (statusCode t.regs.status = 0 ∨ statusCode t.regs.status = 1 ∨ statusCode t.regs.status = 2) ∧
    t.regs.status.extractLsb' 4 4 = 0 ∧ t.regs.status.extractLsb' 16 16 = 0 ∧
    (statusCause t.regs.status = 0 ↔ statusCode t.regs.status = 0)

/-- The frame of the commands (30_encoding.md R62): no command writes a request or operand register, another instance's
registers, an open parameter of R6, or what the host asks and has got; NOP, TAGEN and FOGEN keep every result register, SCBIN keeps the
sample registers (R20, R21, R22); NOP, PQ, SCBIN and TALKUP make no access to table memory (R43). -/
def Obligations.CommandFrame : Prop :=
  ∀ (c : Command) (s t : State), exec c.toInstr s = .next t →
    (t.regs.fftSize = s.regs.fftSize ∧ t.regs.cpLen = s.regs.cpLen ∧ t.regs.numSc = s.regs.numSc ∧
      t.regs.arg0 = s.regs.arg0 ∧ t.regs.arg1 = s.regs.arg1 ∧ t.regs.dst = s.regs.dst ∧ t.regs.cap = s.regs.cap) ∧
    (t.before = s.before ∧ t.after = s.after ∧ t.maxFft = s.maxFft ∧ t.quant = s.quant ∧ t.tmInit = s.tmInit ∧
      t.bus = s.bus ∧ t.reads = s.reads) ∧
    (c ≠ .pq → c ≠ .talkup → t.regs.resCos = s.regs.resCos ∧ t.regs.resSin = s.regs.resSin) ∧
    (c ≠ .pq → c ≠ .talkup → c ≠ .scbin → t.regs.resIdx = s.regs.resIdx) ∧
    (c ≠ .tagen → c ≠ .fogen → t.tm = s.tm)

/-- R62: a command reads the registers of its row and no other: two states that agree on them (and on the open parameters and
table memory) end with the same `STATUS`, the same result in each register of its row that it writes, and the same table
memory; and it writes no other register. -/
def Obligations.OperandsAreThoseOfTheTable : Prop :=
  ∀ (c : Command) (s s' t t' : State), (∀ i ∈ commandReads c, s'.regs.read i = s.regs.read i) → s'.maxFft = s.maxFft →
    s'.quant = s.quant → s'.tmInit = s.tmInit → s'.tm = s.tm → exec c.toInstr s = .next t → exec c.toInstr s' = .next t' →
    t'.regs.status = t.regs.status ∧ t'.tm = t.tm ∧
    (t.regs.status = 0 → ∀ i ∈ commandWrites c, t'.regs.read i = t.regs.read i) ∧
    (∀ i, i ≠ 1 → (i ∉ commandWrites c ∨ t.regs.status ≠ 0) → t.regs.read i = s.regs.read i)

/-- R42, R46, 60_exceptions.md R156: a command that changes a cell changes one of the declared buffer, cells
`DST .. DST + 2 CAP - 1` of table memory, and leaves in it a value other than `0x8000`. -/
def Obligations.WritesStayInTheBuffer : Prop :=
  ∀ (c : Command) (s t : State) (a : Nat), exec c.toInstr s = .next t →
    TableMemory.read s.tmInit a t.tm ≠ TableMemory.read s.tmInit a s.tm →
    s.regs.d ≤ a ∧ a < s.regs.d + 2 * s.regs.capPairs ∧ a < 2 ^ 32 ∧ TableMemory.read s.tmInit a t.tm ≠ 0x8000

/-- R43: the block never reads table memory. Two runs of an instruction that differ only in table memory (and in
TM_INIT) end alike but for table memory, and a cell either keeps in both what it held or ends with one value in both. -/
def Obligations.TableMemoryIsNeverRead : Prop :=
  ∀ (i : Instr) (s t : State) (init : TableInit) (m : TableMemory), exec i s = .next t →
    ∃ n : TableMemory, exec i { s with tmInit := init, tm := m } = .next { t with tmInit := init, tm := n } ∧
      ∀ a, (TableMemory.read s.tmInit a t.tm = TableMemory.read s.tmInit a s.tm ∧
          TableMemory.read init a n = TableMemory.read init a m) ∨
        TableMemory.read init a n = TableMemory.read s.tmInit a t.tm

/-- R152: "The same command with the same registers gives the same result again": a command issued again at once
changes nothing. -/
def Obligations.CommandAgainChangesNothing : Prop :=
  ∀ (c : Command) (s t : State), TableMemory.wf s.tmInit s.tm → exec c.toInstr s = .next t → exec c.toInstr t = .next t

/-- 20_memory.md R55: commands of two instances whose response buffers share no cell leave the same registers and the
same table memory in either order. -/
def Obligations.DisjointInstancesCommute : Prop :=
  ∀ (s : State) (i j : Nat) (c d : Command) (ri rj : Regs), i ≠ j →
    s.instances[i]? = some ri → s.instances[j]? = some rj →
    (ri.d + 2 * ri.capPairs ≤ rj.d ∨ rj.d + 2 * rj.capPairs ≤ ri.d) →
    ∃ p t q u : State,
      step { s with bus :=
        [⟨i, .send (.cmd32 (encodeCommand c))⟩, ⟨j, .send (.cmd32 (encodeCommand d))⟩] } = .next p ∧
      step p = .next t ∧
      step { s with bus :=
        [⟨j, .send (.cmd32 (encodeCommand d))⟩, ⟨i, .send (.cmd32 (encodeCommand c))⟩] } = .next q ∧
      step q = .next u ∧
      t.instances = u.instances ∧ ∀ a, TableMemory.read s.tmInit a t.tm = TableMemory.read s.tmInit a u.tm

/-- 20_memory.md R47: on a byte-addressed platform cell `a` lies at `B + 2a` and `B + 2a + 1`, the less significant byte
at the lower address, so a pair reads as one little-endian word with the cosine in its low half. -/
def Obligations.ByteViewIsLittleEndian : Prop :=
  ∀ (init : TableInit) (m : TableMemory) (B a : Nat),
    (a < 2 ^ 32 → ∃ b0 b1 : BitVec 8, TableMemory.byteAt init B (B + 2 * a) m = some b0 ∧
      TableMemory.byteAt init B (B + 2 * a + 1) m = some b1 ∧ b1 ++ b0 = TableMemory.read init a m) ∧
    (a + 1 < 2 ^ 32 → ∃ b0 b1 b2 b3 : BitVec 8,
      TableMemory.byteAt init B (B + 2 * a) m = some b0 ∧ TableMemory.byteAt init B (B + 2 * a + 1) m = some b1 ∧
      TableMemory.byteAt init B (B + 2 * a + 2) m = some b2 ∧ TableMemory.byteAt init B (B + 2 * a + 3) m = some b3 ∧
      ((b3 ++ b2) ++ (b1 ++ b0) : BitVec 32) = TableMemory.read init (a + 1) m ++ TableMemory.read init a m)
end

