-- ==== Sys2Proof/Laws/Decode.lean ====
section
/-!
SUPPORT. The laws of the fields of command words and transaction records, and of decoding a command word.
-/

namespace Sys2Proof

/-! Command words -/

/-- `RSV` is 0 exactly in the words below 256 (R60). -/
theorem commandRsv_eq_zero (w : Word) : commandRsv w = 0 ↔ w.toNat < 256 := by
  rw [← BitVec.toNat_inj, commandRsv, BitVec.extractLsb'_toNat, Nat.shiftRight_eq_div_pow]
  have := w.isLt
  show _ = 0 ↔ _
  omega

/-- `OPC` is the low byte (R60). -/
theorem commandOpc_toNat (w : Word) : (commandOpc w).toNat = w.toNat % 256 := by
  simp [commandOpc, BitVec.extractLsb'_toNat]

/-- An assigned `OPC` is the word of its command (R61). -/
theorem decodeOpc_some {o : BitVec 8} {c : Command} (h : decodeOpc o = some c) :
    o.toNat = (encodeCommand c).toNat := by
  unfold decodeOpc at h
  split at h
  · cases h; subst o; rfl
  split at h
  · cases h; subst o; rfl
  split at h
  · cases h; subst o; rfl
  split at h
  · cases h; subst o; rfl
  split at h
  · cases h; subst o; rfl
  split at h
  · cases h; subst o; rfl
  · cases h

/-- A word decodes to a command only if it is the command's word (R61). -/
theorem eq_encodeCommand {w : Word} {c : Command} (h : decodeCommand w = .ok c) : w = encodeCommand c := by
  unfold decodeCommand at h
  split at h
  · cases h
  · rename_i h0
    rw [not_not, commandRsv_eq_zero] at h0
    split at h
    · rename_i d hd
      cases h
      have := decodeOpc_some hd
      rw [commandOpc_toNat, Nat.mod_eq_of_lt h0] at this
      exact BitVec.eq_of_toNat_eq this
    · cases h

@[simp] theorem decodeCommand_encodeCommand (c : Command) : decodeCommand (encodeCommand c) = .ok c := by
  cases c <;> rfl

/-- "A decoder tests `RSV` first, then `OPC`" (R63). -/
theorem decodeCommand_error {w : Word} {e : DecodeError} (h : decodeCommand w = .error e) :
    (256 ≤ w.toNat ∧ e = .badRsv) ∨ (w.toNat < 256 ∧ e = .badOpcode) := by
  have h0 := commandRsv_eq_zero w
  unfold decodeCommand at h
  split at h
  · rename_i hr
    exact .inl ⟨by rw [Ne, h0] at hr; omega, (Except.error.inj h).symm⟩
  · rename_i hr
    split at h
    · cases h
    · exact .inr ⟨by rw [not_not, h0] at hr; exact hr, (Except.error.inj h).symm⟩

/-! Records -/

@[simp] theorem recordWe_encodeRecord (we : Bool) (off : Offset) (data : Word) :
    recordWe (encodeRecord we off data) = we := by
  rw [recordWe, encodeRecord, BitVec.getLsbD_append, BitVec.getLsbD_append]; simp

@[simp] theorem recordOff_encodeRecord (we : Bool) (off : Offset) (data : Word) :
    recordOff (encodeRecord we off data) = off := by
  apply BitVec.eq_of_getLsbD_eq
  intro i hi
  rw [recordOff, encodeRecord, BitVec.getLsbD_extractLsb', BitVec.getLsbD_append, BitVec.getLsbD_append]
  simp [hi]

@[simp] theorem recordData_encodeRecord (we : Bool) (off : Offset) (data : Word) :
    recordData (encodeRecord we off data) = data := by
  apply BitVec.eq_of_getLsbD_eq
  intro i hi
  rw [recordData, encodeRecord, BitVec.getLsbD_extractLsb', BitVec.getLsbD_append]
  simp [hi]

/-- A record is its three fields (R65). -/
theorem encodeRecord_fields (r : Record) : encodeRecord (recordWe r) (recordOff r) (recordData r) = r := by
  apply BitVec.eq_of_getLsbD_eq
  intro i hi
  rw [encodeRecord, BitVec.getLsbD_append, BitVec.getLsbD_append]
  simp only [recordWe, recordOff, recordData, BitVec.getLsbD_extractLsb', BitVec.getLsbD_ofBool]
  by_cases h1 : i < 32
  · simp [h1]
  by_cases h2 : i - 32 < 8
  · simp only [h1, h2, decide_true, decide_false, Bool.true_and, if_true, if_false]
    congr 1; omega
  · have : i = 40 := by omega
    subst this; simp

/-- Everything a record can be: no transaction, for one of two reasons, a write, or a read (R65). -/
theorem decodeRecord_cases (r : Record) :
    (Offset.aligned (recordOff r) = false ∧ decodeRecord r = .error .unalignedOffset) ∨
    (Offset.aligned (recordOff r) = true ∧
      ((recordWe r = true ∧ decodeRecord r = .ok (.wr (recordOff r) (recordData r))) ∨
       (recordWe r = false ∧ recordData r ≠ 0 ∧ decodeRecord r = .error .readWithData) ∨
       (recordWe r = false ∧ recordData r = 0 ∧ decodeRecord r = .ok (.rd (recordOff r))))) := by
  unfold decodeRecord
  cases ha : Offset.aligned (recordOff r) with
  | false => exact .inl ⟨rfl, rfl⟩
  | true =>
    refine .inr ⟨rfl, ?_⟩
    cases hw : recordWe r with
    | true => exact .inl ⟨rfl, rfl⟩
    | false =>
      by_cases hd : recordData r = 0
      · exact .inr (.inr ⟨rfl, hd, by rw [if_neg (by simp), if_neg (by simp), if_neg (not_not.2 hd)]⟩)
      · exact .inr (.inl ⟨rfl, hd, by rw [if_neg (by simp), if_neg (by simp), if_pos hd]⟩)

/-- An aligned write is the transaction of its record. -/
theorem decodeRecord_write (off : Offset) (data : Word) (h : Offset.aligned off = true) :
    decodeRecord (encodeRecord true off data) = .ok (.wr off data) := by
  rw [decodeRecord, recordOff_encodeRecord, recordWe_encodeRecord, recordData_encodeRecord, h]; rfl

end Sys2Proof
end

