-- ==== Sys2Proof/Laws/State.lean ====
section
/-!
SUPPORT. What each named update of a state does to each field, one lemma per field (all by rfl), so that no later proof
unfolds an update.
-/

namespace Sys2Proof.Machine

variable (s : State) (c : Cause) (p : Sample) (i : Int)

/-! `finish` -/

@[simp] theorem State.finish_status : (s.finish c).regs.status = statusWord c := rfl
@[simp] theorem State.finish_fftSize : (s.finish c).regs.fftSize = s.regs.fftSize := rfl
@[simp] theorem State.finish_cpLen : (s.finish c).regs.cpLen = s.regs.cpLen := rfl
@[simp] theorem State.finish_numSc : (s.finish c).regs.numSc = s.regs.numSc := rfl
@[simp] theorem State.finish_arg0 : (s.finish c).regs.arg0 = s.regs.arg0 := rfl
@[simp] theorem State.finish_arg1 : (s.finish c).regs.arg1 = s.regs.arg1 := rfl
@[simp] theorem State.finish_dst : (s.finish c).regs.dst = s.regs.dst := rfl
@[simp] theorem State.finish_cap : (s.finish c).regs.cap = s.regs.cap := rfl
@[simp] theorem State.finish_resCos : (s.finish c).regs.resCos = s.regs.resCos := rfl
@[simp] theorem State.finish_resSin : (s.finish c).regs.resSin = s.regs.resSin := rfl
@[simp] theorem State.finish_resIdx : (s.finish c).regs.resIdx = s.regs.resIdx := rfl
@[simp] theorem State.finish_before : (s.finish c).before = s.before := rfl
@[simp] theorem State.finish_after : (s.finish c).after = s.after := rfl
@[simp] theorem State.finish_tm : (s.finish c).tm = s.tm := rfl
@[simp] theorem State.finish_maxFft : (s.finish c).maxFft = s.maxFft := rfl
@[simp] theorem State.finish_quant : (s.finish c).quant = s.quant := rfl
@[simp] theorem State.finish_tmInit : (s.finish c).tmInit = s.tmInit := rfl
@[simp] theorem State.finish_quantizer : (s.finish c).quantizer = s.quantizer := rfl
@[simp] theorem State.finish_bus : (s.finish c).bus = s.bus := rfl
@[simp] theorem State.finish_reads : (s.finish c).reads = s.reads := rfl

/-! `raise` -/

@[simp] theorem State.raise_status : (s.raise c).regs.status = statusWord c := rfl
@[simp] theorem State.raise_fftSize : (s.raise c).regs.fftSize = s.regs.fftSize := rfl
@[simp] theorem State.raise_cpLen : (s.raise c).regs.cpLen = s.regs.cpLen := rfl
@[simp] theorem State.raise_numSc : (s.raise c).regs.numSc = s.regs.numSc := rfl
@[simp] theorem State.raise_arg0 : (s.raise c).regs.arg0 = s.regs.arg0 := rfl
@[simp] theorem State.raise_arg1 : (s.raise c).regs.arg1 = s.regs.arg1 := rfl
@[simp] theorem State.raise_dst : (s.raise c).regs.dst = s.regs.dst := rfl
@[simp] theorem State.raise_cap : (s.raise c).regs.cap = s.regs.cap := rfl
@[simp] theorem State.raise_resCos : (s.raise c).regs.resCos = s.regs.resCos := rfl
@[simp] theorem State.raise_resSin : (s.raise c).regs.resSin = s.regs.resSin := rfl
@[simp] theorem State.raise_resIdx : (s.raise c).regs.resIdx = s.regs.resIdx := rfl
@[simp] theorem State.raise_before : (s.raise c).before = s.before := rfl
@[simp] theorem State.raise_after : (s.raise c).after = s.after := rfl
@[simp] theorem State.raise_tm : (s.raise c).tm = s.tm := rfl
@[simp] theorem State.raise_maxFft : (s.raise c).maxFft = s.maxFft := rfl
@[simp] theorem State.raise_quant : (s.raise c).quant = s.quant := rfl
@[simp] theorem State.raise_tmInit : (s.raise c).tmInit = s.tmInit := rfl
@[simp] theorem State.raise_quantizer : (s.raise c).quantizer = s.quantizer := rfl
@[simp] theorem State.raise_bus : (s.raise c).bus = s.bus := rfl
@[simp] theorem State.raise_reads : (s.raise c).reads = s.reads := rfl

/-! `succeed` -/

@[simp] theorem State.succeed_status : (s.succeed).regs.status = 0 := rfl
@[simp] theorem State.succeed_fftSize : (s.succeed).regs.fftSize = s.regs.fftSize := rfl
@[simp] theorem State.succeed_cpLen : (s.succeed).regs.cpLen = s.regs.cpLen := rfl
@[simp] theorem State.succeed_numSc : (s.succeed).regs.numSc = s.regs.numSc := rfl
@[simp] theorem State.succeed_arg0 : (s.succeed).regs.arg0 = s.regs.arg0 := rfl
@[simp] theorem State.succeed_arg1 : (s.succeed).regs.arg1 = s.regs.arg1 := rfl
@[simp] theorem State.succeed_dst : (s.succeed).regs.dst = s.regs.dst := rfl
@[simp] theorem State.succeed_cap : (s.succeed).regs.cap = s.regs.cap := rfl
@[simp] theorem State.succeed_resCos : (s.succeed).regs.resCos = s.regs.resCos := rfl
@[simp] theorem State.succeed_resSin : (s.succeed).regs.resSin = s.regs.resSin := rfl
@[simp] theorem State.succeed_resIdx : (s.succeed).regs.resIdx = s.regs.resIdx := rfl
@[simp] theorem State.succeed_before : (s.succeed).before = s.before := rfl
@[simp] theorem State.succeed_after : (s.succeed).after = s.after := rfl
@[simp] theorem State.succeed_tm : (s.succeed).tm = s.tm := rfl
@[simp] theorem State.succeed_maxFft : (s.succeed).maxFft = s.maxFft := rfl
@[simp] theorem State.succeed_quant : (s.succeed).quant = s.quant := rfl
@[simp] theorem State.succeed_tmInit : (s.succeed).tmInit = s.tmInit := rfl
@[simp] theorem State.succeed_quantizer : (s.succeed).quantizer = s.quantizer := rfl
@[simp] theorem State.succeed_bus : (s.succeed).bus = s.bus := rfl
@[simp] theorem State.succeed_reads : (s.succeed).reads = s.reads := rfl

/-! `putSample` -/

@[simp] theorem State.putSample_status : (s.putSample p).regs.status = s.regs.status := rfl
@[simp] theorem State.putSample_fftSize : (s.putSample p).regs.fftSize = s.regs.fftSize := rfl
@[simp] theorem State.putSample_cpLen : (s.putSample p).regs.cpLen = s.regs.cpLen := rfl
@[simp] theorem State.putSample_numSc : (s.putSample p).regs.numSc = s.regs.numSc := rfl
@[simp] theorem State.putSample_arg0 : (s.putSample p).regs.arg0 = s.regs.arg0 := rfl
@[simp] theorem State.putSample_arg1 : (s.putSample p).regs.arg1 = s.regs.arg1 := rfl
@[simp] theorem State.putSample_dst : (s.putSample p).regs.dst = s.regs.dst := rfl
@[simp] theorem State.putSample_cap : (s.putSample p).regs.cap = s.regs.cap := rfl
@[simp] theorem State.putSample_resCos : (s.putSample p).regs.resCos = sext32 (enc16 p.cos) := rfl
@[simp] theorem State.putSample_resSin : (s.putSample p).regs.resSin = sext32 (enc16 p.sin) := rfl
@[simp] theorem State.putSample_resIdx : (s.putSample p).regs.resIdx = s.regs.resIdx := rfl
@[simp] theorem State.putSample_before : (s.putSample p).before = s.before := rfl
@[simp] theorem State.putSample_after : (s.putSample p).after = s.after := rfl
@[simp] theorem State.putSample_tm : (s.putSample p).tm = s.tm := rfl
@[simp] theorem State.putSample_maxFft : (s.putSample p).maxFft = s.maxFft := rfl
@[simp] theorem State.putSample_quant : (s.putSample p).quant = s.quant := rfl
@[simp] theorem State.putSample_tmInit : (s.putSample p).tmInit = s.tmInit := rfl
@[simp] theorem State.putSample_quantizer : (s.putSample p).quantizer = s.quantizer := rfl
@[simp] theorem State.putSample_bus : (s.putSample p).bus = s.bus := rfl
@[simp] theorem State.putSample_reads : (s.putSample p).reads = s.reads := rfl

/-! `putIndex` -/

@[simp] theorem State.putIndex_status : (s.putIndex i).regs.status = s.regs.status := rfl
@[simp] theorem State.putIndex_fftSize : (s.putIndex i).regs.fftSize = s.regs.fftSize := rfl
@[simp] theorem State.putIndex_cpLen : (s.putIndex i).regs.cpLen = s.regs.cpLen := rfl
@[simp] theorem State.putIndex_numSc : (s.putIndex i).regs.numSc = s.regs.numSc := rfl
@[simp] theorem State.putIndex_arg0 : (s.putIndex i).regs.arg0 = s.regs.arg0 := rfl
@[simp] theorem State.putIndex_arg1 : (s.putIndex i).regs.arg1 = s.regs.arg1 := rfl
@[simp] theorem State.putIndex_dst : (s.putIndex i).regs.dst = s.regs.dst := rfl
@[simp] theorem State.putIndex_cap : (s.putIndex i).regs.cap = s.regs.cap := rfl
@[simp] theorem State.putIndex_resCos : (s.putIndex i).regs.resCos = s.regs.resCos := rfl
@[simp] theorem State.putIndex_resSin : (s.putIndex i).regs.resSin = s.regs.resSin := rfl
@[simp] theorem State.putIndex_resIdx : (s.putIndex i).regs.resIdx = u32 i := rfl
@[simp] theorem State.putIndex_before : (s.putIndex i).before = s.before := rfl
@[simp] theorem State.putIndex_after : (s.putIndex i).after = s.after := rfl
@[simp] theorem State.putIndex_tm : (s.putIndex i).tm = s.tm := rfl
@[simp] theorem State.putIndex_maxFft : (s.putIndex i).maxFft = s.maxFft := rfl
@[simp] theorem State.putIndex_quant : (s.putIndex i).quant = s.quant := rfl
@[simp] theorem State.putIndex_tmInit : (s.putIndex i).tmInit = s.tmInit := rfl
@[simp] theorem State.putIndex_quantizer : (s.putIndex i).quantizer = s.quantizer := rfl
@[simp] theorem State.putIndex_bus : (s.putIndex i).bus = s.bus := rfl
@[simp] theorem State.putIndex_reads : (s.putIndex i).reads = s.reads := rfl

/-! `resetBlock` -/

@[simp] theorem State.resetBlock_status : (s.resetBlock).regs.status = 0 := rfl
@[simp] theorem State.resetBlock_fftSize : (s.resetBlock).regs.fftSize = 0 := rfl
@[simp] theorem State.resetBlock_cpLen : (s.resetBlock).regs.cpLen = 0 := rfl
@[simp] theorem State.resetBlock_numSc : (s.resetBlock).regs.numSc = 0 := rfl
@[simp] theorem State.resetBlock_arg0 : (s.resetBlock).regs.arg0 = 0 := rfl
@[simp] theorem State.resetBlock_arg1 : (s.resetBlock).regs.arg1 = 0 := rfl
@[simp] theorem State.resetBlock_dst : (s.resetBlock).regs.dst = 0 := rfl
@[simp] theorem State.resetBlock_cap : (s.resetBlock).regs.cap = 0 := rfl
@[simp] theorem State.resetBlock_resCos : (s.resetBlock).regs.resCos = 0 := rfl
@[simp] theorem State.resetBlock_resSin : (s.resetBlock).regs.resSin = 0 := rfl
@[simp] theorem State.resetBlock_resIdx : (s.resetBlock).regs.resIdx = 0 := rfl
@[simp] theorem State.resetBlock_before : (s.resetBlock).before = s.before := rfl
@[simp] theorem State.resetBlock_after : (s.resetBlock).after = s.after := rfl
@[simp] theorem State.resetBlock_tm : (s.resetBlock).tm = s.tm := rfl
@[simp] theorem State.resetBlock_maxFft : (s.resetBlock).maxFft = s.maxFft := rfl
@[simp] theorem State.resetBlock_quant : (s.resetBlock).quant = s.quant := rfl
@[simp] theorem State.resetBlock_tmInit : (s.resetBlock).tmInit = s.tmInit := rfl
@[simp] theorem State.resetBlock_quantizer : (s.resetBlock).quantizer = s.quantizer := rfl
@[simp] theorem State.resetBlock_bus : (s.resetBlock).bus = s.bus := rfl
@[simp] theorem State.resetBlock_reads : (s.resetBlock).reads = s.reads := rfl

/-! Whole states -/

theorem State.raise_eq : s.raise c = { s with regs := { s.regs with status := statusWord c } } := rfl

theorem State.succeed_eq : s.succeed = { s with regs := { s.regs with status := 0 } } := rfl

end Sys2Proof.Machine
end

