-- ==== Sys2Proof/Laws/Ops.lean ====
section
/-!
SUPPORT. The laws of the shared operations: the first failing check, the cells of table memory, the writes of a
command, host register access, and the choice of an instance.
-/

namespace Sys2Proof.Machine

/-! Checks -/

@[simp] theorem firstFailed_nil : firstFailed [] = none := rfl

theorem firstFailed_cons (b : Bool) (c : Cause) (l : List (Bool × Cause)) :
    firstFailed ((b, c) :: l) = if b then some c else firstFailed l := rfl

/-- A check of a proposition. -/
theorem firstFailed_decide (p : Prop) [Decidable p] (c : Cause) (l : List (Bool × Cause)) :
    firstFailed ((decide p, c) :: l) = if p then some c else firstFailed l := by simp [firstFailed]

theorem firstFailed_append (l m : List (Bool × Cause)) :
    firstFailed (l ++ m) = (firstFailed l).or (firstFailed m) := by
  induction l with
  | nil => rfl
  | cons x l ih =>
    obtain ⟨b, c⟩ := x
    cases b <;> simp [firstFailed_cons, ih]

/-- A command runs when no check fails. -/
theorem firstFailed_eq_none_iff (l : List (Bool × Cause)) : firstFailed l = none ↔ ∀ x ∈ l, x.1 = false := by
  induction l with
  | nil => simp
  | cons x l ih =>
    obtain ⟨b, c⟩ := x
    cases b <;> simp [firstFailed_cons, ih]

theorem firstFailed_mem {l : List (Bool × Cause)} {c : Cause} (h : firstFailed l = some c) : (true, c) ∈ l := by
  induction l with
  | nil => simp at h
  | cons x l ih =>
    obtain ⟨b, d⟩ := x
    cases b
    · exact List.mem_cons_of_mem _ (ih (by simpa [firstFailed_cons] using h))
    · have : d = c := by simpa [firstFailed_cons] using h
      subst this; exact List.mem_cons_self

/-! Lists of cells -/

theorem cellListed_insert (a b : Nat) (v : Cell) (m : List (Nat × Cell)) :
    cellListed b (cellInsert a v m) = if b = a then some v else cellListed b m := by
  induction m with
  | nil => simp [cellInsert, cellListed, eq_comm]
  | cons x rest ih =>
    obtain ⟨k, w⟩ := x
    rw [cellInsert]
    split
    · simp [cellListed, eq_comm]
    split
    · rename_i h1 h2
      subst h2
      by_cases h : b = a
      · simp [cellListed, h]
      · simp [cellListed, h, Ne.symm h]
    · rename_i h1 h2
      simp only [cellListed, ih]
      by_cases h : k = b
      · have : b ≠ a := by omega
        simp [h, this]
      · simp [h]

theorem cellListed_remove (a b : Nat) (m : List (Nat × Cell)) :
    cellListed b (m.filter fun x => x.1 != a) = if b = a then none else cellListed b m := by
  induction m with
  | nil => simp [cellListed]
  | cons x rest ih =>
    obtain ⟨k, w⟩ := x
    by_cases hk : k = a
    · subst hk
      rw [List.filter_cons_of_neg (by simp), ih, cellListed]
      by_cases h : b = k
      · rw [if_pos h, if_pos h]
      · rw [if_neg h, if_neg h, if_neg (Ne.symm h)]
    · rw [List.filter_cons_of_pos (by simpa using hk), cellListed, cellListed, ih]
      by_cases h : k = b
      · rw [if_pos h, if_pos h, if_neg (h ▸ hk)]
      · rw [if_neg h, if_neg h]

theorem mem_cellInsert {a : Nat} {v : Cell} {m : List (Nat × Cell)} {x : Nat × Cell} (h : x ∈ cellInsert a v m) :
    x = (a, v) ∨ x ∈ m := by
  induction m with
  | nil => simpa [cellInsert] using h
  | cons y rest ih =>
    obtain ⟨k, w⟩ := y
    rw [cellInsert] at h
    split at h
    · simpa using h
    split at h
    · rcases List.mem_cons.1 h with h | h
      · exact .inl h
      · exact .inr (List.mem_cons_of_mem _ h)
    · rcases List.mem_cons.1 h with h | h
      · exact .inr (h ▸ List.mem_cons_self)
      · exact (ih h).imp_right (List.mem_cons_of_mem _)

theorem cellInsert_sorted (a : Nat) (v : Cell) (m : List (Nat × Cell)) (hs : (m.map (·.1)).Pairwise (· < ·)) :
    ((cellInsert a v m).map (·.1)).Pairwise (· < ·) := by
  induction m with
  | nil => simp [cellInsert]
  | cons y rest ih =>
    obtain ⟨k, w⟩ := y
    simp only [List.map_cons, List.pairwise_cons, List.mem_map, forall_exists_index, and_imp,
      forall_apply_eq_imp_iff₂] at hs
    rw [cellInsert]
    split
    · rename_i hlt
      simp only [List.map_cons, List.pairwise_cons, List.mem_cons, List.mem_map]
      refine ⟨?_, ?_, hs.2⟩
      · rintro b (rfl | ⟨z, hz, rfl⟩)
        · exact hlt
        · exact hlt.trans (hs.1 z hz)
      · rintro b ⟨z, hz, rfl⟩; exact hs.1 z hz
    split
    · rename_i _ heq
      subst heq
      simp only [List.map_cons, List.pairwise_cons, List.mem_map]
      exact ⟨by rintro b ⟨z, hz, rfl⟩; exact hs.1 z hz, hs.2⟩
    · simp only [List.map_cons, List.pairwise_cons, List.mem_map]
      refine ⟨?_, ih hs.2⟩
      rintro b ⟨z, hz, rfl⟩
      rcases mem_cellInsert hz with rfl | hz
      · show k < a; omega
      · exact hs.1 z hz

theorem mem_of_cellListed {m : List (Nat × Cell)} {a : Nat} {v : Cell} (h : cellListed a m = some v) : (a, v) ∈ m := by
  induction m with
  | nil => simp [cellListed] at h
  | cons y rest ih =>
    rw [cellListed] at h
    split at h
    · rename_i heq
      obtain ⟨k, w⟩ := y
      simp only [Option.some.injEq] at h heq
      subst h; subst heq
      exact List.mem_cons_self
    · exact List.mem_cons_of_mem _ (ih h)

theorem cellListed_of_mem {m : List (Nat × Cell)} (hs : (m.map (·.1)).Pairwise (· < ·)) {x : Nat × Cell} (hx : x ∈ m) :
    cellListed x.1 m = some x.2 := by
  induction m with
  | nil => simp at hx
  | cons y rest ih =>
    simp only [List.map_cons, List.pairwise_cons, List.mem_map] at hs
    rcases List.mem_cons.1 hx with rfl | hx
    · simp [cellListed]
    · have : y.1 < x.1 := hs.1 _ ⟨x, hx, rfl⟩
      rw [cellListed, if_neg (by omega)]
      exact ih hs.2 hx

/-! Cells of table memory -/

/-- Before any command has written it, every cell holds what `TM_INIT` gives it (R6). -/
@[simp] theorem TableMemory.read_nil (init : TableInit) (a : Nat) : TableMemory.read init a [] = init.cell a := rfl

/-- A cell that is written holds the value written, every other cell what it held. -/
theorem TableMemory.read_write (init : TableInit) (a b : Nat) (v : Cell) (m : TableMemory) :
    TableMemory.read init b (TableMemory.write init a v m) = if b = a then v else TableMemory.read init b m := by
  unfold TableMemory.read TableMemory.write
  split
  · rename_i h
    rw [cellListed_remove]
    split
    · rename_i hb; subst hb; exact h.symm
    · rfl
  · rw [cellListed_insert]
    split <;> rfl

@[simp] theorem TableMemory.read_write_same (init : TableInit) (a : Nat) (v : Cell) (m : TableMemory) :
    TableMemory.read init a (TableMemory.write init a v m) = v := by rw [read_write, if_pos rfl]

theorem TableMemory.read_write_other (init : TableInit) (a b : Nat) (v : Cell) (m : TableMemory) (h : b ≠ a) :
    TableMemory.read init b (TableMemory.write init a v m) = TableMemory.read init b m := by rw [read_write, if_neg h]

theorem TableMemory.mem_write {init : TableInit} {a : Nat} {v : Cell} {m : TableMemory} {x : Nat × Cell}
    (h : x ∈ TableMemory.write init a v m) : (x = (a, v) ∧ v ≠ init.cell a) ∨ x ∈ m := by
  unfold TableMemory.write at h
  split at h
  · exact .inr (List.mem_filter.1 h).1
  · rename_i hv
    exact (mem_cellInsert h).imp_left fun h => ⟨h, hv⟩

/-- A cell write keeps the one form of table memory. -/
theorem TableMemory.write_wf {init : TableInit} {a : Nat} (v : Cell) {m : TableMemory} (ha : a < Config.tmCells)
    (h : TableMemory.wf init m) : TableMemory.wf init (TableMemory.write init a v m) := by
  refine ⟨?_, fun x hx => ?_⟩
  · unfold TableMemory.write
    split
    · exact h.1.sublist (List.filter_sublist.map _)
    · exact cellInsert_sorted a v m h.1
  · rcases mem_write hx with ⟨rfl, hv⟩ | hx
    · exact ⟨ha, hv⟩
    · exact h.2 x hx

/-- Two memories in the one form that read alike are equal. -/
theorem TableMemory.eq_of_read_eq {init : TableInit} {m n : TableMemory} (hm : TableMemory.wf init m)
    (hn : TableMemory.wf init n) (h : ∀ a, TableMemory.read init a m = TableMemory.read init a n) : m = n := by
  have key : ∀ {m n : TableMemory}, TableMemory.wf init m → TableMemory.wf init n →
      (∀ a, TableMemory.read init a m = TableMemory.read init a n) → ∀ x ∈ m, x ∈ n := by
    intro m n hm _ h x hx
    have h1 := h x.1
    rw [read, read, cellListed_of_mem hm.1 hx] at h1
    cases hl : cellListed x.1 n with
    | none => rw [hl] at h1; exact absurd h1 (hm.2 x hx).2
    | some w =>
      rw [hl] at h1
      have : w = x.2 := h1.symm
      subst this
      exact mem_of_cellListed hl
  have hnd : ∀ {m : TableMemory}, TableMemory.wf init m → m.Nodup := by
    intro m hm
    exact List.Nodup.of_map _ (hm.1.imp fun h => Nat.ne_of_lt h)
  have hperm : List.Perm m n := (List.perm_ext_iff_of_nodup (hnd hm) (hnd hn)).2 fun x =>
    ⟨key hm hn h x, key hn hm (fun a => (h a).symm) x⟩
  refine hperm.eq_of_pairwise (le := fun x y => x.1 < y.1) ?_ ?_ ?_
  · intro x y _ _ h1 h2; omega
  · exact List.pairwise_map.1 hm.1
  · exact List.pairwise_map.1 hn.1

/-! The writes of a command -/

/-- The memory that the cell writes `ws` leave, in order. -/
def TableMemory.writeAll (init : TableInit) (ws : List (Nat × Cell)) (m : TableMemory) : TableMemory :=
  ws.foldl (fun m w => TableMemory.write init w.1 w.2 m) m

@[simp] theorem TableMemory.writeAll_nil (init : TableInit) (m : TableMemory) : TableMemory.writeAll init [] m = m := rfl

@[simp] theorem TableMemory.writeAll_cons (init : TableInit) (w : Nat × Cell) (ws : List (Nat × Cell)) (m : TableMemory) :
    TableMemory.writeAll init (w :: ws) m = TableMemory.writeAll init ws (TableMemory.write init w.1 w.2 m) := rfl

/-- Where every address is that of a cell, the writes of a command are all performed. -/
theorem State.memWrites_eq (ws : List (Nat × Cell)) (s : State) (h : ∀ w ∈ ws, w.1 < Config.tmCells) :
    s.memWrites ws = .next { s with tm := TableMemory.writeAll s.tmInit ws s.tm } := by
  induction ws generalizing s with
  | nil => rfl
  | cons w ws ih =>
    obtain ⟨a, v⟩ := w
    rw [State.memWrites, if_pos (h _ List.mem_cons_self), ih _ fun w hw => h w (List.mem_cons_of_mem _ hw)]
    rfl

/-- The end of a generator whose addresses are all those of cells. -/
theorem State.writeTable_eq (ws : List (Nat × Cell)) (s : State) (h : ∀ w ∈ ws, w.1 < Config.tmCells) :
    s.writeTable ws = .next { s.succeed with tm := TableMemory.writeAll s.tmInit ws s.tm } := by
  rw [State.writeTable, State.memWrites_eq ws s h]; rfl

theorem TableMemory.writeAll_wf (init : TableInit) (ws : List (Nat × Cell)) (m : TableMemory)
    (h : ∀ w ∈ ws, w.1 < Config.tmCells)
    (hm : TableMemory.wf init m) : TableMemory.wf init (TableMemory.writeAll init ws m) := by
  induction ws generalizing m with
  | nil => exact hm
  | cons w ws ih =>
    exact ih _ (fun w hw => h w (List.mem_cons_of_mem _ hw)) (write_wf _ (h _ List.mem_cons_self) hm)

/-- The writes of a command keep the one form of table memory. -/
theorem State.memWrites_wf (ws : List (Nat × Cell)) (s t : State) (hs : TableMemory.wf s.tmInit s.tm)
    (h : s.memWrites ws = .next t) : TableMemory.wf t.tmInit t.tm := by
  induction ws generalizing s with
  | nil => cases h; exact hs
  | cons w ws ih =>
    rw [State.memWrites] at h
    split at h
    · rename_i ha
      exact ih _ (TableMemory.write_wf _ ha hs) h
    · cases h

theorem State.reset_tm_wf : TableMemory.wf State.reset.tmInit State.reset.tm := by decide

theorem TableMemory.mem_writeAll {init : TableInit} {ws : List (Nat × Cell)} {m : TableMemory} {x : Nat × Cell}
    (h : x ∈ TableMemory.writeAll init ws m) : x ∈ ws ∨ x ∈ m := by
  induction ws generalizing m with
  | nil => exact .inr h
  | cons w ws ih =>
    rcases ih h with h | h
    · exact .inl (List.mem_cons_of_mem _ h)
    · rcases mem_write h with ⟨rfl, -⟩ | h
      · exact .inl List.mem_cons_self
      · exact .inr h

/-- Cells no write addresses keep what they held. -/
theorem TableMemory.read_writeAll_other (init : TableInit) (ws : List (Nat × Cell)) (m : TableMemory) (a : Nat)
    (h : ∀ w ∈ ws, w.1 ≠ a) : TableMemory.read init a (TableMemory.writeAll init ws m) = TableMemory.read init a m := by
  induction ws generalizing m with
  | nil => rfl
  | cons w ws ih =>
    rw [writeAll_cons, ih _ fun w hw => h w (List.mem_cons_of_mem _ hw),
      read_write_other _ _ _ _ _ (Ne.symm (h w List.mem_cons_self))]

/-- A cell that is written reads as the value of a write that addresses it, whatever it held before. -/
theorem TableMemory.read_writeAll_mem (ws : List (Nat × Cell)) (a : Nat) (h : ∃ w ∈ ws, w.1 = a) :
    ∃ w ∈ ws, w.1 = a ∧ ∀ init m, TableMemory.read init a (TableMemory.writeAll init ws m) = w.2 := by
  induction ws with
  | nil => simp at h
  | cons w ws ih =>
    by_cases hin : ∃ u ∈ ws, u.1 = a
    · obtain ⟨u, hu, hua, hread⟩ := ih hin
      exact ⟨u, List.mem_cons_of_mem _ hu, hua, fun init m => hread init _⟩
    · have hw : w.1 = a := by
        obtain ⟨u, hu, hua⟩ := h
        rcases List.mem_cons.1 hu with rfl | hu
        · exact hua
        · exact absurd ⟨u, hu, hua⟩ hin
      refine ⟨w, List.mem_cons_self, hw, fun init m => ?_⟩
      rw [writeAll_cons, read_writeAll_other _ _ _ _ fun u hu hua => hin ⟨u, hu, hua⟩, ← hw, read_write_same]

/-- A cell that one write addresses, and whose writes all carry one value, reads as that value. -/
theorem TableMemory.read_writeAll_of_agree (init : TableInit) (ws : List (Nat × Cell)) (m : TableMemory) (a : Nat) (v : Cell)
    (hin : (a, v) ∈ ws) (hall : ∀ w ∈ ws, w.1 = a → w.2 = v) :
    TableMemory.read init a (TableMemory.writeAll init ws m) = v := by
  obtain ⟨w, hw, hwa, hread⟩ := read_writeAll_mem ws a ⟨_, hin, rfl⟩
  rw [hread init m, hall w hw hwa]

/-! Host register access -/

theorem Regs.read_write_same (i : Nat) (v : Word) (r : Regs) (h : 2 ≤ i) (h' : i ≤ 8) :
    (r.write i v).read i = v := by
  interval_cases i <;> rfl

theorem Regs.read_write_other (i j : Nat) (v : Word) (r : Regs) (h : j ≠ i) : (r.write i v).read j = r.read j := by
  unfold Regs.write
  split <;> first | rfl | (unfold Regs.read; split <;> first | rfl | omega)

theorem Regs.write_ignored (i : Nat) (v : Word) (r : Regs) (h : i < 2 ∨ 8 < i) : r.write i v = r := by
  unfold Regs.write
  split <;> first | rfl | omega

/-- A host write never reaches the status register or a result register. -/
theorem Regs.write_readOnly (i : Nat) (v : Word) (r : Regs) :
    (r.write i v).status = r.status ∧ (r.write i v).resCos = r.resCos ∧ (r.write i v).resSin = r.resSin ∧
    (r.write i v).resIdx = r.resIdx := by
  unfold Regs.write
  split <;> exact ⟨rfl, rfl, rfl, rfl⟩

theorem Regs.read_reserved (i : Nat) (r : Regs) (h : i = 0 ∨ 12 ≤ i) : r.read i = 0 := by
  unfold Regs.read
  split <;> first | rfl | omega

/-! Instances -/

theorem State.select_eq_some {j : Nat} {s t : State} (h : s.select j = some t) :
    t.instances = s.instances ∧ t.selected = j ∧ j < s.instances.length ∧
    t = { s with regs := t.regs, before := t.before, after := t.after } := by
  unfold State.select at h
  split at h
  · simp at h
  · rename_i r rest hd
    have hlt : j < s.instances.length := by
      by_contra hge
      rw [List.drop_eq_nil_of_le (by omega)] at hd
      simp at hd
    simp only [Option.some.injEq] at h
    subst h
    refine ⟨?_, ?_, hlt, rfl⟩
    · show s.instances.take j ++ r :: rest = s.instances
      rw [← hd, List.take_append_drop]
    · simp [State.selected]; omega

theorem State.select_eq_none {j : Nat} {s : State} : s.select j = none ↔ s.instances.length ≤ j := by
  unfold State.select
  split
  · rename_i hd
    simp only [List.drop_eq_nil_iff] at hd
    simpa using hd
  · rename_i hd
    simp only [reduceCtorEq, false_iff, not_le]
    by_contra hge
    rw [List.drop_eq_nil_of_le (by omega)] at hd
    simp at hd

/-- Addressing the instance that is addressed already changes nothing. -/
theorem State.select_selected (s : State) : s.select s.selected = some s := by
  simp [State.select, State.instances, State.selected]

/-- The addressed instance is the one with its number. -/
theorem State.instances_selected (s : State) : s.instances[s.selected]? = some s.regs := by
  simp [State.instances, State.selected]

theorem State.instances_other (s : State) (r : Regs) (j : Nat) (h : j ≠ s.selected) :
    ({ s with regs := r } : State).instances[j]? = s.instances[j]? := by
  simp only [State.instances, State.selected] at *
  rcases lt_or_gt_of_ne h with h | h
  · rw [List.getElem?_append_left h, List.getElem?_append_left h]
  · rw [List.getElem?_append_right h.le, List.getElem?_append_right h.le]
    obtain ⟨k, hk⟩ : ∃ k, j - s.before.length = k + 1 := ⟨j - s.before.length - 1, by omega⟩
    rw [hk]; rfl

end Sys2Proof.Machine
end

