-- ==== Sys2Proof/Laws/Operands.lean ====
section
/-!
SUPPORT. The laws of the operand and result forms: the normalised modulo, powers of two, ranges, the readings of result
registers, the cell writes of a pair.
-/

namespace Sys2Proof.Machine

/-- `wrap` is the floor modulo (R9). -/
theorem wrap_eq_emod (x N : Int) (hN : 0 < N) : wrap x N = x % N := by
  have hrem : rem x N = Int.tmod x N := by
    rw [rem]; have := Int.mul_tdiv_add_tmod x N; omega
  rw [wrap, hrem, Int.tmod_eq_emod]
  have h0 := Int.emod_nonneg x hN.ne'
  have h1 := Int.emod_lt_of_pos x hN
  by_cases hx : 0 ≤ x ∨ N ∣ x
  · simp only [hx, if_true]; split <;> omega
  · simp only [hx, if_false]; split <;> omega

theorem wrap_nonneg (x N : Int) (hN : 0 < N) : 0 ≤ wrap x N := by
  rw [wrap_eq_emod x N hN]; exact Int.emod_nonneg x hN.ne'

theorem wrap_lt (x N : Int) (hN : 0 < N) : wrap x N < N := by
  rw [wrap_eq_emod x N hN]; exact Int.emod_lt_of_pos x hN

/-- `isPow2` says what its name says (R9). -/
theorem isPow2_iff (N : Int) : isPow2 N = true ↔ ∃ e : Nat, N = 2 ^ e := by
  simp only [isPow2, Bool.and_eq_true, decide_eq_true_eq, beq_iff_eq]
  constructor
  · rintro ⟨h0, h⟩
    refine ⟨N.toNat.log2, ?_⟩
    have : (N.toNat : Int) = ((2 ^ N.toNat.log2 : Nat) : Int) := by exact_mod_cast h
    rw [Int.toNat_of_nonneg h0.le] at this
    simpa using this
  · rintro ⟨e, rfl⟩
    refine ⟨by positivity, ?_⟩
    have : ((2 : Int) ^ e).toNat = 2 ^ e := by
      rw [show ((2 : Int) ^ e) = ((2 ^ e : Nat) : Int) by push_cast; rfl, Int.toNat_natCast]
    rw [this, Nat.log2_two_pow]

theorem mem_forRange (lo hi v : Int) : v ∈ forRange lo hi ↔ lo ≤ v ∧ v ≤ hi := by
  simp only [forRange, List.mem_map, List.mem_range]
  constructor
  · rintro ⟨i, hi', rfl⟩; omega
  · rintro ⟨h1, h2⟩; exact ⟨(v - lo).toNat, by omega, by omega⟩

/-- A sample component survives in its result register (R20). -/
theorem toInt_sext32_enc16 (i : Int) (h1 : -32768 ≤ i) (h2 : i ≤ 32767) : (sext32 (enc16 i)).toInt = i := by
  rw [sext32, BitVec.toInt_signExtend_of_le (by norm_num), enc16, BitVec.toInt_ofInt, Int.bmod_eq_of_le] <;> norm_num <;> omega

/-- An index below `2^31` survives in its result register (R22). -/
theorem toInt_u32 (i : Int) (h1 : 0 ≤ i) (h2 : i < 2 ^ 31) : (u32 i).toInt = i := by
  rw [u32, BitVec.toInt_ofInt, Int.bmod_eq_of_le] <;> norm_num <;> omega

/-- Bit 31 of an index below `2^31` is 0 (R22). -/
theorem getLsbD_u32 (i : Int) (h1 : 0 ≤ i) (h2 : i < 2 ^ 31) : (u32 i).getLsbD 31 = false := by
  have hn : (u32 i).toNat < 2 ^ 31 := by
    rw [u32, BitVec.toNat_ofInt]; omega
  exact Nat.testBit_lt_two_pow hn

/-- The pattern `0x8000` stands for `-32768` alone (R42). -/
theorem enc16_ne_poison (i : Int) (h1 : -32767 ≤ i) (h2 : i ≤ 32767) : enc16 i ≠ 0x8000 := by
  intro h
  have : (enc16 i).toInt = -32768 := by rw [h]; decide
  rw [enc16, BitVec.toInt_ofInt, Int.bmod_eq_of_le] at this <;> norm_num at * <;> omega

theorem word_toInt_lt (w : Word) : w.toInt < 2 ^ 31 := by
  have := BitVec.toInt_lt (x := w); norm_num at this ⊢; omega

theorem mem_pairWrites (D p : Nat) (q : Sample) (w : Nat × Cell) :
    w ∈ pairWrites D p q ↔ w = (D + 2 * p, enc16 q.cos) ∨ w = (D + 2 * p + 1, enc16 q.sin) := by
  simp [pairWrites]

/-- What the two resource checks of a generator let through (R105, R121). -/
theorem checkBuffer_ok (r : Regs) (req : Int) :
    firstFailed (checkBuffer r req) = none ↔ req ≤ r.capPairs ∧ r.d + 2 * req ≤ 2 ^ 32 := by
  rw [firstFailed_eq_none_iff]
  simp [checkBuffer, Config.tmCells]

/-- A buffer with too few pairs is found first (R105, R121). -/
theorem checkBuffer_capShort (r : Regs) (req : Int) (h : (r.capPairs : Int) < req) :
    firstFailed (checkBuffer r req) = some .capShort := by
  rw [checkBuffer, firstFailed_decide, if_pos h]

/-- A buffer with the pairs but not all of them in table memory is found next (R105, R121). -/
theorem checkBuffer_addrWrap (r : Regs) (req : Int) (h : req ≤ r.capPairs) (h' : 2 ^ 32 < r.d + 2 * req) :
    firstFailed (checkBuffer r req) = some .addrWrap := by
  rw [checkBuffer, firstFailed_decide, if_neg (not_lt.2 h), firstFailed_decide, if_pos (by rw [Config.tmCells]; omega)]

end Sys2Proof.Machine
end

