-- ==== Sys2Proof/Laws/Frequency.lean ====
section
/-!
SUPPORT. The laws of the frequency-offset generator FOGEN.
-/

namespace Sys2Proof.Machine

/-- When FOGEN runs (R122). -/
theorem checkFogen_ok (r : Regs) : firstFailed (checkFogen r) = none ↔ ValidFO r ∧ ResourceFO r := by
  rw [checkFogen, firstFailed_append, Option.or_eq_none_iff, checkBuffer_ok, firstFailed_eq_none_iff]
  simp [checkFO, ValidFO, ResourceFO, reqFO, Config.foMaxFft, Config.lanes]

/-- Everything FOGEN can do. -/
theorem execFogenWith_cases (q : Quantizer) (s : State) :
    (∃ c, firstFailed (checkFogen s.regs) = some c ∧ execFogenWith q s = .next (s.raise c)) ∨
    ((ValidFO s.regs ∧ ResourceFO s.regs) ∧
      execFogenWith q s = s.writeTable (writesFO q s.regs.fftN s.regs.d)) := by
  unfold execFogenWith
  cases h : firstFailed (checkFogen s.regs) with
  | some c => exact .inl ⟨c, rfl, rfl⟩
  | none => exact .inr ⟨(checkFogen_ok s.regs).1 h, rfl⟩

theorem pairFO_cast (n l : Int) (hn : 0 ≤ n) (hl : 0 ≤ l) : (pairFO n l : Int) = 16 * n + l := by
  rw [pairFO, Config.lanes]; omega

theorem mem_writesFO (q : Quantizer) (N : Int) (D : Nat) (w : Nat × Cell) :
    w ∈ writesFO q N D ↔ ∃ n l, (0 ≤ n ∧ n < N) ∧ (0 ≤ l ∧ l < 16) ∧
      (w = (D + 2 * pairFO n l, enc16 (q n N).cos) ∨ w = (D + 2 * pairFO n l + 1, enc16 (q n N).sin)) := by
  simp only [writesFO, List.mem_flatMap, mem_forRange, mem_pairWrites, Config.lanes]
  constructor
  · rintro ⟨n, hn, l, hl, hw⟩; exact ⟨n, l, by omega, by omega, hw⟩
  · rintro ⟨n, l, hn, hl, hw⟩; exact ⟨n, by omega, l, by omega, hw⟩

/-- Every cell FOGEN writes is one of cells `D .. D + 2 REQ - 1` (R46). -/
theorem writesFO_range {q : Quantizer} {N : Int} {D : Nat} {w : Nat × Cell} (hw : w ∈ writesFO q N D) :
    D ≤ w.1 ∧ (w.1 : Int) < D + 2 * (16 * N) := by
  obtain ⟨n, l, hn, hl, hw⟩ := (mem_writesFO ..).1 hw
  have := pairFO_cast n l hn.1 hl.1
  rcases hw with rfl | rfl <;> constructor <;> push_cast <;> omega

/-- Every cell FOGEN writes is a cell of table memory. -/
theorem writesFO_cells {q : Quantizer} {r : Regs} (hr : ResourceFO r) :
    ∀ w ∈ writesFO q r.fftN r.d, w.1 < Config.tmCells := by
  intro w hw
  have h1 := (writesFO_range hw).2
  have h2 := hr.2
  rw [Config.tmCells]; omega

/-- What FOGEN leaves in the two cells of an entry (R122, R126). -/
theorem writesFO_read (q : Quantizer) (N : Int) (D : Nat) (init : TableInit) (m : TableMemory) (n l : Int) (hn : 0 ≤ n ∧ n < N)
    (hl : 0 ≤ l ∧ l < 16) :
    TableMemory.read init (D + 2 * pairFO n l) (TableMemory.writeAll init (writesFO q N D) m) = enc16 (q n N).cos ∧
    TableMemory.read init (D + 2 * pairFO n l + 1) (TableMemory.writeAll init (writesFO q N D) m)
      = enc16 (q n N).sin := by
  have hp := pairFO_cast n l hn.1 hl.1
  constructor
  · refine TableMemory.read_writeAll_of_agree _ _ _ _ _
      ((mem_writesFO ..).2 ⟨n, l, hn, hl, .inl rfl⟩) fun w hw hwa => ?_
    obtain ⟨n', l', hn', hl', rfl | rfl⟩ := (mem_writesFO ..).1 hw
    · have hp' := pairFO_cast n' l' hn'.1 hl'.1
      have : n' = n := by simp only at hwa; omega
      subst this; rfl
    · simp only at hwa; omega
  · refine TableMemory.read_writeAll_of_agree _ _ _ _ _
      ((mem_writesFO ..).2 ⟨n, l, hn, hl, .inr rfl⟩) fun w hw hwa => ?_
    obtain ⟨n', l', hn', hl', rfl | rfl⟩ := (mem_writesFO ..).1 hw
    · simp only at hwa; omega
    · have hp' := pairFO_cast n' l' hn'.1 hl'.1
      have : n' = n := by simp only at hwa; omega
      subst this; rfl

end Sys2Proof.Machine
end

