-- ==== Sys2Proof/Laws/PhaseSeries.lean ====
section
/-!
SUPPORT. The series of PhaseQ: how far the integer partial sums of the arctangent and of the exponential can be from
the real values they stand for.
-/

namespace Sys2Proof.Machine

/-- Floor division loses less than one. -/
theorem abs_natDiv_sub_le (a b : ℕ) : |((a / b : ℕ) : ℝ) - (a : ℝ) / b| ≤ 1 := by
  rcases Nat.eq_zero_or_pos b with rfl | hb
  · simp
  have hb' : (0 : ℝ) < b := by exact_mod_cast hb
  have h1 : ((a / b : ℕ) : ℝ) ≤ (a : ℝ) / b := Nat.cast_div_le
  have h2 : (a : ℝ) / b < ((a / b : ℕ) : ℝ) + 1 := by
    rw [div_lt_iff₀ hb']
    exact_mod_cast Nat.lt_mul_of_div_lt (Nat.lt_succ_self _) hb
  rw [abs_le]; constructor <;> linarith

/-- The real partial sum that `atanSum` approximates. -/
noncomputable def atanReal (x : ℝ) : ℕ → ℕ → ℝ
  | 0, _ => 0
  | n + 1, k => x⁻¹ ^ (2 * k + 1) / (2 * k + 1 : ℕ) - atanReal x n (k + 1)

theorem atanReal_eq (x : ℝ) (n k : ℕ) :
    atanReal x n k = ∑ i ∈ Finset.range n, (-1) ^ i * (x⁻¹ ^ (2 * (k + i) + 1) / (2 * (k + i) + 1 : ℕ)) := by
  induction n generalizing k with
  | zero => simp [atanReal]
  | succ n ih =>
    have h : ∀ i, (-1 : ℝ) ^ (i + 1) * (x⁻¹ ^ (2 * (k + (i + 1)) + 1) / (2 * (k + (i + 1)) + 1 : ℕ))
        = -((-1) ^ i * (x⁻¹ ^ (2 * (k + 1 + i) + 1) / (2 * (k + 1 + i) + 1 : ℕ))) := fun i => by
      rw [show k + (i + 1) = k + 1 + i by omega, pow_succ]; ring
    rw [atanReal, ih, Finset.sum_range_succ', Finset.sum_congr rfl fun i _ => h i, Finset.sum_neg_distrib]
    simp [sub_eq_neg_add]

/-- Each step of `atanSum` adds an error of at most 3 units. -/
theorem atanSum_error (x : ℕ) (hx : 2 ≤ x) (S : ℝ) (n k u : ℕ)
    (hu : |(u : ℝ) - S * (x : ℝ)⁻¹ ^ (2 * k + 1)| ≤ 2) :
    |(atanSum x n k u : ℝ) - S * atanReal x n k| ≤ 3 * n := by
  induction n generalizing k u with
  | zero => simp [atanSum, atanReal]
  | succ n ih =>
    have hx0 : (0 : ℝ) < x := by exact_mod_cast (by omega : 0 < x)
    have hnext : |((u / (x * x) : ℕ) : ℝ) - S * (x : ℝ)⁻¹ ^ (2 * (k + 1) + 1)| ≤ 2 := by
      have h1 := abs_natDiv_sub_le u (x * x)
      have h2 : (u : ℝ) / (x * x : ℕ) - S * (x : ℝ)⁻¹ ^ (2 * (k + 1) + 1)
          = ((u : ℝ) - S * (x : ℝ)⁻¹ ^ (2 * k + 1)) / (x * x : ℕ) := by
        rw [show 2 * (k + 1) + 1 = 2 * k + 1 + 2 by ring, pow_add]
        push_cast; field_simp
      have h3 : |((u : ℝ) - S * (x : ℝ)⁻¹ ^ (2 * k + 1)) / (x * x : ℕ)| ≤ 1 := by
        rw [abs_div, abs_of_pos (by positivity : (0 : ℝ) < (x * x : ℕ)), div_le_one (by positivity)]
        refine hu.trans ?_
        exact_mod_cast (by nlinarith : 2 ≤ x * x)
      rw [← h2] at h3
      calc _ = |(((u / (x * x) : ℕ) : ℝ) - (u : ℝ) / (x * x : ℕ)) +
            ((u : ℝ) / (x * x : ℕ) - S * (x : ℝ)⁻¹ ^ (2 * (k + 1) + 1))| := by ring_nf
        _ ≤ _ := (abs_add_le _ _).trans (by linarith)
    have hrest := ih (k + 1) (u / (x * x)) hnext
    have h1 := abs_natDiv_sub_le u (2 * k + 1)
    have hk : (1 : ℝ) ≤ (2 * k + 1 : ℕ) := by exact_mod_cast (by omega : 1 ≤ 2 * k + 1)
    have h2 : |(u : ℝ) / (2 * k + 1 : ℕ) - S * ((x : ℝ)⁻¹ ^ (2 * k + 1) / (2 * k + 1 : ℕ))| ≤ 2 := by
      rw [show (u : ℝ) / (2 * k + 1 : ℕ) - S * ((x : ℝ)⁻¹ ^ (2 * k + 1) / (2 * k + 1 : ℕ))
        = ((u : ℝ) - S * (x : ℝ)⁻¹ ^ (2 * k + 1)) / (2 * k + 1 : ℕ) by ring, abs_div,
        abs_of_pos (by linarith : (0 : ℝ) < (2 * k + 1 : ℕ))]
      exact (div_le_self (abs_nonneg _) hk).trans hu
    simp only [atanSum, atanReal, Int.cast_sub, Int.cast_natCast]
    rw [abs_le] at *
    rw [Nat.cast_add_one n]
    constructor <;> nlinarith

/-- The truncation error of the arctangent series. -/
theorem arctan_sub_atanReal (x : ℝ) (hx : 2 ≤ x) (n : ℕ) :
    |Real.arctan x⁻¹ - atanReal x n 0| ≤ x⁻¹ ^ (2 * n + 1) := by
  have hx0 : 0 < x⁻¹ := by positivity
  have hx1 : x⁻¹ < 1 := inv_lt_one_of_one_lt₀ (by linarith)
  set f : ℕ → ℝ := fun i => x⁻¹ ^ (2 * i + 1) / (2 * i + 1 : ℕ) with hf
  have hanti : Antitone f := by
    refine antitone_nat_of_succ_le fun i => ?_
    refine div_le_div₀ (by positivity) (pow_le_pow_of_le_one hx0.le hx1.le (by omega)) (by positivity) ?_
    exact_mod_cast (by omega)
  have hs := Real.hasSum_arctan (x := x⁻¹) (by rw [Real.norm_eq_abs, abs_of_pos hx0]; exact hx1)
  have hsum : Summable f := by
    refine (summable_geometric_of_lt_one hx0.le hx1).of_nonneg_of_le (fun i => by positivity) fun i => ?_
    refine (div_le_self (by positivity) ?_).trans (pow_le_pow_of_le_one hx0.le hx1.le (by omega))
    exact_mod_cast (by omega)
  have key := alternating_series_error_bound f hanti hsum n
  have h1 : (∑' i : ℕ, (-1) ^ i * f i) = Real.arctan x⁻¹ := by
    rw [← hs.tsum_eq]
    exact tsum_congr fun i => by simp only [hf]; ring
  have h2 : (∑ i ∈ Finset.range n, (-1) ^ i * f i) = atanReal x n 0 := by
    rw [atanReal_eq]
    exact Finset.sum_congr rfl fun i _ => by simp [hf]
  rw [h1, h2] at key
  refine key.trans (div_le_self (by positivity) ?_)
  exact_mod_cast (by omega)

/-- The whole error of `atanSum` with `p/4 + 1` terms at scale `2^p`. -/
theorem atanSum_arctan (x : ℕ) (hx : 5 ≤ x) (p : ℕ) :
    |(atanSum x (p / 4 + 1) 0 (2 ^ p / x) : ℝ) - 2 ^ p * Real.arctan (x : ℝ)⁻¹| ≤ 3 * (p / 4 + 1 : ℕ) + 1 := by
  have hx0 : (0 : ℝ) < x := by exact_mod_cast (by omega : 0 < x)
  have hstart : |((2 ^ p / x : ℕ) : ℝ) - (2 : ℝ) ^ p * (x : ℝ)⁻¹ ^ (2 * 0 + 1)| ≤ 2 := by
    have := abs_natDiv_sub_le (2 ^ p) x
    push_cast at this
    rw [div_eq_mul_inv] at this
    simpa using this.trans (by norm_num)
  have h1 := atanSum_error x (by omega) (2 ^ p) (p / 4 + 1) 0 (2 ^ p / x) hstart
  have h2 := arctan_sub_atanReal x (by exact_mod_cast (by omega : 2 ≤ x)) (p / 4 + 1)
  have h3 : (2 : ℝ) ^ p * (x : ℝ)⁻¹ ^ (2 * (p / 4 + 1) + 1) ≤ 1 := by
    rw [inv_pow, ← div_eq_mul_inv, div_le_one (by positivity)]
    have h4 : (2 : ℝ) ^ p ≤ 2 ^ (2 * (2 * (p / 4 + 1) + 1)) := pow_le_pow_right₀ (by norm_num) (by omega)
    refine h4.trans ?_
    rw [pow_mul]
    refine pow_le_pow_left₀ (by norm_num) ?_ _
    have : (5 : ℝ) ≤ x := by exact_mod_cast hx
    norm_num; linarith
  have h4 : |(2 : ℝ) ^ p * atanReal x (p / 4 + 1) 0 - 2 ^ p * Real.arctan (x : ℝ)⁻¹| ≤ 1 := by
    rw [← mul_sub, abs_mul, abs_of_pos (by positivity : (0 : ℝ) < 2 ^ p), abs_sub_comm]
    exact (mul_le_mul_of_nonneg_left h2 (by positivity)).trans h3
  calc _ = |((atanSum x (p / 4 + 1) 0 (2 ^ p / x) : ℝ) - 2 ^ p * atanReal x (p / 4 + 1) 0)
        + (2 ^ p * atanReal x (p / 4 + 1) 0 - 2 ^ p * Real.arctan (x : ℝ)⁻¹)| := by ring_nf
    _ ≤ _ := (abs_add_le _ _).trans (add_le_add h1 h4)

/-- The error of `piScaled`. -/
theorem piScaled_error (p : ℕ) : |(piScaled p : ℝ) - 2 ^ p * Real.pi| ≤ 15 * p + 80 := by
  have h5 := atanSum_arctan 5 (by norm_num) p
  have h239 := atanSum_arctan 239 (by norm_num) p
  have hm := Real.four_mul_arctan_inv_5_sub_arctan_inv_239
  have hpi : Real.pi = 4 * (4 * Real.arctan ((5 : ℕ) : ℝ)⁻¹ - Real.arctan ((239 : ℕ) : ℝ)⁻¹) := by
    push_cast; linarith
  have hk : ((p / 4 + 1 : ℕ) : ℝ) ≤ (p : ℝ) / 4 + 1 := by
    push_cast
    have : ((p / 4 : ℕ) : ℝ) ≤ (p : ℝ) / (4 : ℕ) := Nat.cast_div_le
    push_cast at this; linarith
  rw [hpi, piScaled]
  push_cast at *
  rw [abs_le] at *
  constructor <;> nlinarith [h5.1, h5.2, h239.1, h239.2]

end Sys2Proof.Machine
end

