-- ==== Sys2Proof/Laws/PhaseEnclose.lean ====
section
/-!
SUPPORT. What `enclose` answers: cosine and sine of its angle, each right to within `encloseErr`.
-/

namespace Sys2Proof.Machine

/-- The complex partial sum that `expSum` approximates. -/
noncomputable def expPart (x : ℝ) : ℕ → ℕ → ℂ
  | 0, _ => 0
  | n + 1, k => ((x ^ k / (k.factorial : ℝ) : ℝ) : ℂ) + Complex.I * expPart x n (k + 1)

theorem expPart_eq (x : ℝ) (n k : ℕ) :
    expPart x n k = ∑ i ∈ Finset.range n, Complex.I ^ i * ((x ^ (k + i) / ((k + i).factorial : ℝ) : ℝ) : ℂ) := by
  induction n generalizing k with
  | zero => simp [expPart]
  | succ n ih =>
    rw [expPart, ih, Finset.sum_range_succ', Finset.mul_sum, add_comm]
    simp only [pow_zero, one_mul, add_zero]
    congr 1
    refine Finset.sum_congr rfl fun i _ => ?_
    rw [show k + (i + 1) = k + 1 + i by omega, pow_succ]; ring

theorem expPart_zero (x : ℝ) (n : ℕ) :
    expPart x n 0 = ∑ m ∈ Finset.range n, (x * Complex.I) ^ m / (m.factorial : ℂ) := by
  rw [expPart_eq]
  refine Finset.sum_congr rfl fun i _ => ?_
  rw [zero_add, mul_pow]; push_cast; ring

theorem expPart_re (x : ℝ) (n k : ℕ) :
    (expPart x (n + 1) k).re = x ^ k / (k.factorial : ℝ) - (expPart x n (k + 1)).im := by
  simp only [expPart, Complex.add_re, Complex.ofReal_re, Complex.mul_re, Complex.I_re, Complex.I_im]; ring

theorem expPart_im (x : ℝ) (n k : ℕ) : (expPart x (n + 1) k).im = (expPart x n (k + 1)).re := by
  simp only [expPart, Complex.add_im, Complex.ofReal_im, Complex.mul_im, Complex.I_re, Complex.I_im]; ring

/-- The next term of the series, one floor division away. -/
theorem expTerm_error (S a : ℕ) (hS : 0 < S) (ha : (a : ℝ) / S ≤ 8 / 5) (k t : ℕ)
    (ht : |(t : ℝ) - S * (((a : ℝ) / S) ^ k / (k.factorial : ℝ))| ≤ 5) (h0 : k = 0 → t = S) :
    |((t * a / (S * (k + 1)) : ℕ) : ℝ) - S * (((a : ℝ) / S) ^ (k + 1) / ((k + 1).factorial : ℝ))| ≤ 5 := by
  have hS' : (0 : ℝ) < S := by exact_mod_cast hS
  have hx : 0 ≤ (a : ℝ) / S := by positivity
  have hk : (0 : ℝ) < (k : ℝ) + 1 := by positivity
  have hf : (0 : ℝ) < (k.factorial : ℝ) := by exact_mod_cast k.factorial_pos
  have h1 := abs_natDiv_sub_le (t * a) (S * (k + 1))
  have h2 : ((t * a : ℕ) : ℝ) / (S * (k + 1) : ℕ) - S * (((a : ℝ) / S) ^ (k + 1) / ((k + 1).factorial : ℝ))
      = ((t : ℝ) - S * (((a : ℝ) / S) ^ k / (k.factorial : ℝ))) * ((a : ℝ) / S / (k + 1)) := by
    rw [Nat.factorial_succ, pow_succ]
    push_cast
    field_simp
  have h3 : |((t : ℝ) - S * (((a : ℝ) / S) ^ k / (k.factorial : ℝ))) * ((a : ℝ) / S / (k + 1))| ≤ 4 := by
    rcases Nat.eq_zero_or_pos k with rfl | hkp
    · simp [h0 rfl]
    · have hk2 : (2 : ℝ) ≤ (k : ℝ) + 1 := by exact_mod_cast (by omega : 2 ≤ k + 1)
      have h4 : (a : ℝ) / S / (k + 1) ≤ 4 / 5 := by
        rw [div_le_iff₀ hk]; linarith
      rw [abs_mul, abs_of_nonneg (by positivity : 0 ≤ (a : ℝ) / S / (k + 1))]
      calc _ ≤ 5 * (4 / 5 : ℝ) := mul_le_mul ht h4 (by positivity) (by norm_num)
        _ = 4 := by norm_num
  rw [← h2] at h3
  calc _ = |(((t * a / (S * (k + 1)) : ℕ) : ℝ) - ((t * a : ℕ) : ℝ) / (S * (k + 1) : ℕ)) +
        (((t * a : ℕ) : ℝ) / (S * (k + 1) : ℕ) - S * (((a : ℝ) / S) ^ (k + 1) / ((k + 1).factorial : ℝ)))| := by ring_nf
    _ ≤ _ := (abs_add_le _ _).trans (by linarith)

/-- Each step of `expSum` adds an error of at most 5 units to a component. -/
theorem expSum_error (S a : ℕ) (hS : 0 < S) (ha : (a : ℝ) / S ≤ 8 / 5) (n k t : ℕ)
    (ht : |(t : ℝ) - S * (((a : ℝ) / S) ^ k / (k.factorial : ℝ))| ≤ 5) (h0 : k = 0 → t = S) :
    |((expSum S a n k t).1 : ℝ) - S * (expPart ((a : ℝ) / S) n k).re| ≤ 5 * n ∧
    |((expSum S a n k t).2 : ℝ) - S * (expPart ((a : ℝ) / S) n k).im| ≤ 5 * n := by
  induction n generalizing k t with
  | zero => simp [expSum, expPart]
  | succ n ih =>
    have hrest := ih (k + 1) (t * a / (S * (k + 1))) (expTerm_error S a hS ha k t ht h0) (by omega)
    simp only [expSum, expPart_re, expPart_im, Int.cast_sub, Int.cast_natCast]
    rw [abs_le, abs_le] at hrest
    rw [abs_le] at ht
    rw [abs_le, abs_le, Nat.cast_add_one n]
    obtain ⟨⟨h1, h2⟩, h3, h4⟩ := hrest
    refine ⟨⟨?_, ?_⟩, ?_, ?_⟩ <;> linarith [ht.1, ht.2]

theorem two_mul_seven_pow_le_factorial (n : ℕ) (hn : 32 ≤ n) : 2 * 7 ^ n ≤ n.factorial := by
  induction n, hn using Nat.le_induction with
  | base => decide +kernel
  | succ n hn ih =>
    rw [Nat.factorial_succ, pow_succ]
    calc 2 * (7 ^ n * 7) = 7 * (2 * 7 ^ n) := by ring
      _ ≤ (n + 1) * n.factorial := Nat.mul_le_mul (by omega) ih

theorem mul_le_two_pow (p : ℕ) (hp : 64 ≤ p) : 1024 * p ≤ 2 ^ p := by
  induction p, hp using Nat.le_induction with
  | base => norm_num
  | succ p hp ih => rw [pow_succ]; omega

/-- The truncation error of the exponential series with `p/2` terms, at scale `2^p`. -/
theorem expPart_tail (x : ℝ) (hx0 : 0 ≤ x) (hx : x ≤ 8 / 5) (p : ℕ) (hp : 64 ≤ p) :
    ‖Complex.exp (x * Complex.I) - expPart x (p / 2) 0‖ * 2 ^ p ≤ 2 := by
  set n := p / 2 with hn
  have hn32 : 32 ≤ n := by omega
  have hnorm : ‖(x * Complex.I : ℂ)‖ = x := by simp [abs_of_nonneg hx0]
  have hb := Complex.exp_bound' (x := x * Complex.I) (n := n) (by
    rw [hnorm, div_le_iff₀ (by positivity)]
    have : (33 : ℝ) ≤ (n.succ : ℝ) := by exact_mod_cast (by omega : 33 ≤ n.succ)
    linarith)
  rw [← expPart_zero, hnorm] at hb
  have hf : (0 : ℝ) < n.factorial := by exact_mod_cast n.factorial_pos
  have h7 : (2 : ℝ) * 7 ^ n ≤ n.factorial := by exact_mod_cast two_mul_seven_pow_le_factorial n hn32
  have hp2 : (2 : ℝ) ^ p ≤ 2 * 4 ^ n := by
    have : p ≤ 2 * n + 1 := by omega
    calc (2 : ℝ) ^ p ≤ 2 ^ (2 * n + 1) := pow_le_pow_right₀ (by norm_num) this
      _ = 2 * 4 ^ n := by rw [pow_succ, pow_mul]; norm_num [mul_comm]
  have hxn : x ^ n * 2 ^ p ≤ n.factorial := by
    calc x ^ n * 2 ^ p ≤ (8 / 5) ^ n * (2 * 4 ^ n) :=
          mul_le_mul (pow_le_pow_left₀ hx0 hx n) hp2 (by positivity) (by positivity)
      _ = 2 * (32 / 5) ^ n := by rw [show (32 / 5 : ℝ) = 8 / 5 * 4 by norm_num, mul_pow]; ring
      _ ≤ 2 * 7 ^ n := by gcongr; norm_num
      _ ≤ _ := h7
  calc _ ≤ x ^ n / n.factorial * 2 * 2 ^ p := mul_le_mul_of_nonneg_right hb (by positivity)
    _ = x ^ n * 2 ^ p / n.factorial * 2 := by ring
    _ ≤ 1 * 2 := mul_le_mul_of_nonneg_right ((div_le_one hf).2 hxn) (by norm_num)
    _ = 2 := by norm_num

/-- The angle of `enclose`: `(pi/2) * (r/N)`. -/
noncomputable def quadAngle (r N : ℕ) : ℝ := Real.pi / 2 * (r / N)

/-- The scaled angle that `enclose` feeds into the exponential series. -/
theorem scaledAngle_error (p r N : ℕ) (hp : 64 ≤ p) (hr : r < N) :
    |(((piScaled p * r).toNat / (2 * N) : ℕ) : ℝ) - 2 ^ p * quadAngle r N| ≤ 15 / 2 * p + 41 := by
  have hN : (0 : ℝ) < N := by exact_mod_cast (by omega : 0 < N)
  have hpi := piScaled_error p
  have h2p : (1024 : ℝ) * p ≤ 2 ^ p := by exact_mod_cast mul_le_two_pow p hp
  have hp' : (64 : ℝ) ≤ p := by exact_mod_cast hp
  have hpos : 0 ≤ piScaled p := by
    have : (0 : ℝ) ≤ (piScaled p : ℝ) := by
      rw [abs_le] at hpi
      nlinarith [Real.pi_gt_three, hpi.1]
    exact_mod_cast this
  have hcast : (((piScaled p * r).toNat : ℕ) : ℝ) = (piScaled p : ℝ) * r := by
    have : (((piScaled p * r).toNat : ℕ) : ℤ) = piScaled p * r := Int.toNat_of_nonneg (by positivity)
    exact_mod_cast this
  have h1 := abs_natDiv_sub_le (piScaled p * r).toNat (2 * N)
  rw [hcast] at h1
  have h2 : (piScaled p : ℝ) * r / (2 * N : ℕ) - 2 ^ p * quadAngle r N
      = ((piScaled p : ℝ) - 2 ^ p * Real.pi) * ((r : ℝ) / N / 2) := by
    rw [quadAngle]; push_cast; field_simp
  have hrN : (r : ℝ) / N ≤ 1 := by rw [div_le_one hN]; exact_mod_cast hr.le
  have h3 : |((piScaled p : ℝ) - 2 ^ p * Real.pi) * ((r : ℝ) / N / 2)| ≤ (15 * p + 80) * (1 / 2) := by
    rw [abs_mul, abs_of_nonneg (by positivity : 0 ≤ (r : ℝ) / N / 2)]
    exact mul_le_mul hpi (by linarith) (by positivity) (by positivity)
  rw [← h2] at h3
  rw [abs_le] at *
  constructor <;> linarith [h1.1, h1.2, h3.1, h3.2]

theorem quadAngle_bounds (r N : ℕ) (hr : r < N) : 0 ≤ quadAngle r N ∧ quadAngle r N ≤ Real.pi / 2 := by
  have hN : (0 : ℝ) < N := by exact_mod_cast (by omega : 0 < N)
  have hrN : (r : ℝ) / N ≤ 1 := by rw [div_le_one hN]; exact_mod_cast hr.le
  have := Real.pi_pos
  constructor
  · rw [quadAngle]; positivity
  · rw [quadAngle]; nlinarith

/-- `enclose` gives both components to within `encloseErr`. -/
theorem enclose_error (p r N : ℕ) (hp : 64 ≤ p) (hr : r < N) :
    |((enclose p r N).1 : ℝ) - 2 ^ p * Real.cos (quadAngle r N)| ≤ encloseErr p ∧
    |((enclose p r N).2 : ℝ) - 2 ^ p * Real.sin (quadAngle r N)| ≤ encloseErr p := by
  set a := (piScaled p * r).toNat / (2 * N) with ha
  set x : ℝ := (a : ℝ) / (2 ^ p : ℕ) with hx
  have hS : (0 : ℝ) < 2 ^ p := by positivity
  have hSc : ((2 ^ p : ℕ) : ℝ) = 2 ^ p := by push_cast; rfl
  have hang := scaledAngle_error p r N hp hr
  have h2p : (1024 : ℝ) * p ≤ 2 ^ p := by exact_mod_cast mul_le_two_pow p hp
  have hp' : (64 : ℝ) ≤ p := by exact_mod_cast hp
  have hax : (a : ℝ) = 2 ^ p * x := by rw [hx, hSc]; field_simp
  have hdiff : 2 ^ p * |x - quadAngle r N| ≤ 15 / 2 * p + 41 := by
    rw [← abs_of_pos hS, ← abs_mul, mul_sub, ← hax]; exact hang
  have hx0 : 0 ≤ x := by positivity
  have hx8 : x ≤ 8 / 5 := by
    have h1 := (quadAngle_bounds r N hr).2
    have h2 := le_abs_self (x - quadAngle r N)
    have h3 : Real.pi < 3.15 := Real.pi_lt_d2
    by_contra hcon
    have h4 : (0.02 : ℝ) ≤ |x - quadAngle r N| := by norm_num at *; linarith
    nlinarith [mul_le_mul_of_nonneg_left h4 hS.le]
  have hsum := expSum_error (2 ^ p) a (by positivity) hx8 (p / 2) 0 (2 ^ p) (by simp) (by simp)
  rw [← hx, hSc] at hsum
  have htail := expPart_tail x hx0 hx8 p hp
  have hre := Complex.abs_re_le_norm (Complex.exp (x * Complex.I) - expPart x (p / 2) 0)
  have him := Complex.abs_im_le_norm (Complex.exp (x * Complex.I) - expPart x (p / 2) 0)
  rw [Complex.sub_re, Complex.exp_ofReal_mul_I_re] at hre
  rw [Complex.sub_im, Complex.exp_ofReal_mul_I_im] at him
  have hcos := Real.abs_cos_sub_cos_le x (quadAngle r N)
  have hsin := Real.abs_sin_sub_sin_le x (quadAngle r N)
  have hhalf : ((p / 2 : ℕ) : ℝ) ≤ (p : ℝ) / 2 := by exact_mod_cast (Nat.cast_div_le : ((p / 2 : ℕ) : ℝ) ≤ (p : ℝ) / (2 : ℕ))
  have herr : ((encloseErr p : ℤ) : ℝ) = 16 * p := by simp [encloseErr]
  rw [herr]
  have glue : ∀ (v e c θ : ℝ), |v - 2 ^ p * e| ≤ 5 * ((p / 2 : ℕ) : ℝ) →
      |c - e| ≤ ‖Complex.exp (x * Complex.I) - expPart x (p / 2) 0‖ → |c - θ| ≤ |x - quadAngle r N| →
      |v - 2 ^ p * θ| ≤ 16 * p := by
    intro v e c θ h1 h2 h3
    have h2' : 2 ^ p * |c - e| ≤ 2 := by nlinarith
    have h3' : 2 ^ p * |c - θ| ≤ 15 / 2 * p + 41 := (mul_le_mul_of_nonneg_left h3 hS.le).trans hdiff
    rw [← abs_of_pos hS, ← abs_mul, abs_le] at h2' h3'
    rw [abs_le] at *
    constructor <;> linarith [h1.1, h1.2, h2'.1, h2'.2, h3'.1, h3'.2]
  exact ⟨glue _ _ _ _ hsum.1 hre hcos, glue _ _ _ _ hsum.2 him hsin⟩

end Sys2Proof.Machine
end

