-- ==== Sys2Proof/Laws/PhaseMargin.lean ====
section
/-!
SUPPORT. How close a cosine of a rational angle can come to a rounding boundary of R7: the margin that makes `refine`
end. For `2 cos phi = b/d`, the numbers `d^n * 2 cos(n phi)` are integers, so `2 cos(M phi)` is 2 or misses 2 by
`1/d^M`; Niven's theorem settles the first case.
-/

namespace Sys2Proof.Machine

theorem scaled_cos_int (b d : ℤ) (φ : ℝ) (h : (d : ℝ) * (2 * Real.cos φ) = b) (n : ℕ) :
    (∃ z : ℤ, (d : ℝ) ^ n * (2 * Real.cos (n * φ)) = z) ∧
    (∃ z : ℤ, (d : ℝ) ^ (n + 1) * (2 * Real.cos ((n + 1 : ℕ) * φ)) = z) := by
  induction n with
  | zero => exact ⟨⟨2, by simp⟩, ⟨b, by simpa using h⟩⟩
  | succ n ih =>
    refine ⟨ih.2, ?_⟩
    obtain ⟨⟨y, hy⟩, z, hz⟩ := ih
    refine ⟨b * z - d ^ 2 * y, ?_⟩
    have hrec : Real.cos ((n + 1 + 1 : ℕ) * φ)
        = 2 * Real.cos φ * Real.cos ((n + 1 : ℕ) * φ) - Real.cos (n * φ) := by
      have h1 := Real.cos_add ((n + 1 : ℕ) * φ) φ
      have h2 := Real.cos_sub ((n + 1 : ℕ) * φ) φ
      rw [show ((n + 1 : ℕ) : ℝ) * φ + φ = (n + 1 + 1 : ℕ) * φ by push_cast; ring] at h1
      rw [show ((n + 1 : ℕ) : ℝ) * φ - φ = n * φ by push_cast; ring] at h2
      linarith
    push_cast
    rw [← hz, ← hy, ← h, show ((n : ℝ) + 1 + 1) = ((n + 1 + 1 : ℕ) : ℝ) by push_cast; ring, hrec]
    push_cast; ring

theorem abs_sin_nat_mul_le (n : ℕ) (x : ℝ) : |Real.sin (n * x)| ≤ n * |Real.sin x| := by
  induction n with
  | zero => simp
  | succ n ih =>
    rw [show ((n + 1 : ℕ) : ℝ) * x = n * x + x by push_cast; ring, Real.sin_add]
    have h1 := Real.abs_cos_le_one x
    have h2 := Real.abs_cos_le_one (n * x)
    have h3 : |Real.sin (n * x) * Real.cos x| ≤ |Real.sin (n * x)| := by
      rw [abs_mul]; exact mul_le_of_le_one_right (abs_nonneg _) h1
    have h4 : |Real.cos (n * x) * Real.sin x| ≤ |Real.sin x| := by
      rw [abs_mul]; exact mul_le_of_le_one_left (abs_nonneg _) h2
    push_cast
    refine (abs_add_le _ _).trans ?_
    linarith

theorem abs_cos_mul_sub_le (M : ℕ) (x y : ℝ) :
    |Real.cos (M * x) - Real.cos (M * y)| ≤ M ^ 2 * |Real.cos x - Real.cos y| := by
  rw [Real.cos_sub_cos, Real.cos_sub_cos, abs_mul, abs_mul, abs_mul, abs_mul]
  have h1 := abs_sin_nat_mul_le M ((x + y) / 2)
  have h2 := abs_sin_nat_mul_le M ((x - y) / 2)
  rw [show (M : ℝ) * ((x + y) / 2) = (M * x + M * y) / 2 by ring] at h1
  rw [show (M : ℝ) * ((x - y) / 2) = (M * x - M * y) / 2 by ring] at h2
  calc _ ≤ |(-2 : ℝ)| * (M * |Real.sin ((x + y) / 2)|) * (M * |Real.sin ((x - y) / 2)|) := by gcongr
    _ = _ := by ring

/-- The margin from a boundary `b/d` that is no rational cosine of the angle's circle. -/
theorem margin_of_ne_one (M : ℕ) (hM : 0 < M) (b d : ℤ) (hd : 0 < d) (φ θ : ℝ)
    (hφ : (d : ℝ) * (2 * Real.cos φ) = b) (hθ : Real.cos (M * θ) = 1) (hne : Real.cos (M * φ) ≠ 1) :
    1 / ((M : ℝ) ^ 2 * (d : ℝ) ^ M) ≤ |(b : ℝ) / d - 2 * Real.cos θ| := by
  obtain ⟨z, hz⟩ := (scaled_cos_int b d φ hφ M).1
  have hd' : (0 : ℝ) < d := by exact_mod_cast hd
  have hM' : (0 : ℝ) < M := by exact_mod_cast hM
  have hint : (1 : ℝ) ≤ |(d : ℝ) ^ M * (2 * Real.cos (M * φ) - 2)| := by
    have h1 : (d : ℝ) ^ M * (2 * Real.cos (M * φ) - 2) = ((z - 2 * d ^ M : ℤ) : ℝ) := by
      push_cast; rw [← hz]; ring
    have h2 : (z - 2 * d ^ M : ℤ) ≠ 0 := by
      intro h0
      rw [h0, Int.cast_zero, mul_eq_zero] at h1
      rcases h1 with h1 | h1
      · exact (pow_pos hd' M).ne' h1
      · exact hne (by linarith)
    rw [h1, ← Int.cast_abs]
    exact_mod_cast Int.one_le_abs h2
  have hb : (b : ℝ) / d = 2 * Real.cos φ := by rw [← hφ]; field_simp
  have hlip := abs_cos_mul_sub_le M φ θ
  rw [hθ] at hlip
  rw [hb, div_le_iff₀ (by positivity), ← mul_sub, abs_mul, abs_two]
  rw [show (2 * Real.cos (M * φ) - 2 : ℝ) = 2 * (Real.cos (M * φ) - 1) by ring, abs_mul, abs_mul, abs_two,
    abs_of_pos (pow_pos hd' M)] at hint
  calc (1 : ℝ) ≤ _ := hint
    _ ≤ (d : ℝ) ^ M * (2 * (M ^ 2 * |Real.cos φ - Real.cos θ|)) := by gcongr
    _ = _ := by ring

/-- A rational point `b/65534` with `b` odd on the circle of the angles `2 pi l / M` is `1/2` or `-1/2`. -/
theorem boundary_of_cos_eq_one (M : ℕ) (hM : 0 < M) (b : ℤ) (hb : b % 2 = 1) (φ : ℝ)
    (hφ : (32767 : ℝ) * (2 * Real.cos φ) = b) (h1 : Real.cos (M * φ) = 1) : b = 32767 ∨ b = -32767 := by
  obtain ⟨l, hl⟩ := (Real.cos_eq_one_iff _).1 h1
  have hM' : (M : ℝ) ≠ 0 := by exact_mod_cast hM.ne'
  have hrat : ∃ r : ℚ, φ = r * Real.pi := ⟨2 * l / M, by push_cast; field_simp; linarith⟩
  have hcos : Real.cos φ = b / 65534 := by linarith
  have := niven hrat ⟨(b : ℚ) / 65534, by rw [hcos]; push_cast; ring⟩
  rw [hcos] at this
  have hcases : (b : ℝ) = -65534 ∨ (b : ℝ) = -32767 ∨ (b : ℝ) = 0 ∨ (b : ℝ) = 32767 ∨ (b : ℝ) = 65534 := by
    simp only [Set.mem_insert_iff, Set.mem_singleton_iff] at this
    rcases this with h | h | h | h | h
    · left; linarith
    · right; left; linarith
    · right; right; left; linarith
    · right; right; right; left; linarith
    · right; right; right; right; linarith
  have hcases' : b = -65534 ∨ b = -32767 ∨ b = 0 ∨ b = 32767 ∨ b = 65534 := by exact_mod_cast hcases
  omega

/-- The margin at the boundary `1/2`, from the angles that are not `pi/3`. -/
theorem margin_at_half (r N : ℕ) (hr : r < N) (h3 : 3 * r ≠ 2 * N) :
    1 / (3 * (N : ℝ)) ≤ |1 - 2 * Real.cos (quadAngle r N)| := by
  have hN : (0 : ℝ) < N := by exact_mod_cast (by omega : 0 < N)
  have hpi := Real.pi_pos
  obtain ⟨h0, hle⟩ := quadAngle_bounds r N hr
  have hform : (1 - 2 * Real.cos (quadAngle r N) : ℝ)
      = -4 * (Real.sin ((Real.pi / 3 + quadAngle r N) / 2) * Real.sin ((Real.pi / 3 - quadAngle r N) / 2)) := by
    have := Real.cos_sub_cos (Real.pi / 3) (quadAngle r N)
    rw [Real.cos_pi_div_three] at this
    linarith
  have hs1 : (1 / 2 : ℝ) ≤ Real.sin ((Real.pi / 3 + quadAngle r N) / 2) := by
    rw [← Real.sin_pi_div_six]
    exact Real.sin_le_sin_of_le_of_le_pi_div_two (by linarith) (by linarith) (by linarith)
  have habs : Real.pi / (12 * N) ≤ |(Real.pi / 3 - quadAngle r N) / 2| := by
    have hz : (1 : ℝ) ≤ |((2 * N - 3 * r : ℤ) : ℝ)| := by
      rw [← Int.cast_abs]
      have hne : 2 * (N : ℤ) - 3 * r ≠ 0 := by omega
      exact_mod_cast Int.one_le_abs hne
    have h2 : (Real.pi / 3 - quadAngle r N) / 2 = Real.pi / (12 * N) * ((2 * N - 3 * r : ℤ) : ℝ) := by
      rw [quadAngle]; push_cast; field_simp; ring
    rw [h2, abs_mul, abs_of_pos (by positivity : 0 < Real.pi / (12 * (N : ℝ)))]
    exact le_mul_of_one_le_right (by positivity) hz
  have hs2 : 1 / (6 * (N : ℝ)) ≤ |Real.sin ((Real.pi / 3 - quadAngle r N) / 2)| := by
    have hx : |(Real.pi / 3 - quadAngle r N) / 2| ≤ Real.pi / 2 := by
      rw [abs_le]; constructor <;> linarith
    have hj := Real.mul_le_sin (abs_nonneg _) hx
    have h4 : Real.sin |(Real.pi / 3 - quadAngle r N) / 2| ≤ |Real.sin ((Real.pi / 3 - quadAngle r N) / 2)| := by
      rcases abs_choice ((Real.pi / 3 - quadAngle r N) / 2) with h | h
      · rw [h]; exact le_abs_self _
      · rw [h, Real.sin_neg]; exact neg_le_abs _
    refine le_trans ?_ (hj.trans h4)
    calc 1 / (6 * (N : ℝ)) = 2 / Real.pi * (Real.pi / (12 * N)) := by field_simp; norm_num
      _ ≤ _ := by gcongr
  rw [hform, abs_mul, abs_mul, abs_of_nonneg (by linarith : (0 : ℝ) ≤ Real.sin ((Real.pi / 3 + quadAngle r N) / 2))]
  have h4 : |(-4 : ℝ)| = 4 := by norm_num
  rw [h4]
  calc 1 / (3 * (N : ℝ)) = 4 * (1 / 2 * (1 / (6 * N))) := by field_simp; norm_num
    _ ≤ _ := by gcongr

/-- The margin of every rounding boundary from twice the cosine of a first-quadrant angle that is no tie. -/
theorem cos_margin (r N : ℕ) (hr0 : 0 < r) (hr : r < N) (h3 : 3 * r ≠ 2 * N) (b : ℤ) (hb : b % 2 = 1) :
    1 / ((4 * N : ℕ) ^ 2 * (32767 : ℝ) ^ (4 * N)) ≤ |(b : ℝ) / 32767 - 2 * Real.cos (quadAngle r N)| := by
  have hN1 : 1 ≤ N := by omega
  have hN : (0 : ℝ) < N := by exact_mod_cast (by omega : 0 < N)
  obtain ⟨h0, hle⟩ := quadAngle_bounds r N hr
  have hpi := Real.pi_pos
  have hcos0 : 0 ≤ Real.cos (quadAngle r N) :=
    Real.cos_nonneg_of_neg_pi_div_two_le_of_le (by linarith) hle
  have hcos1 := Real.cos_le_one (quadAngle r N)
  have hpow : (32767 : ℝ) ≤ 32767 ^ (4 * N) := le_self_pow₀ (by norm_num) (by omega)
  have hsq : (3 : ℝ) * N ≤ (4 * N : ℕ) ^ 2 := by
    push_cast
    have : (1 : ℝ) ≤ N := by exact_mod_cast hN1
    nlinarith
  have hsq1 : (1 : ℝ) ≤ (4 * N : ℕ) ^ 2 := by
    push_cast
    have : (1 : ℝ) ≤ N := by exact_mod_cast hN1
    nlinarith
  have hsmall : 1 / ((4 * N : ℕ) ^ 2 * (32767 : ℝ) ^ (4 * N)) ≤ 1 / 32767 :=
    one_div_le_one_div_of_le (by norm_num) (hpow.trans (le_mul_of_one_le_left (by positivity) hsq1))
  by_cases hbig : 65534 < b
  · have : (65535 : ℝ) ≤ b := by exact_mod_cast hbig
    refine hsmall.trans (le_trans ?_ (le_abs_self _))
    rw [le_sub_iff_add_le, div_add' _ _ _ (by norm_num), div_le_div_iff_of_pos_right (by norm_num)]
    linarith
  by_cases hneg : b < 0
  · have : (b : ℝ) ≤ -1 := by exact_mod_cast (by omega : b ≤ -1)
    refine hsmall.trans (le_trans ?_ (neg_le_abs _))
    have : (b : ℝ) / 32767 ≤ -1 / 32767 := by gcongr
    linarith
  have hb0 : (0 : ℝ) ≤ b := by exact_mod_cast (by omega : 0 ≤ b)
  have hb2 : (b : ℝ) ≤ 65534 := by exact_mod_cast (by omega : b ≤ 65534)
  have hφ : (32767 : ℝ) * (2 * Real.cos (Real.arccos (b / 65534))) = b := by
    rw [Real.cos_arccos (by linarith [div_nonneg hb0 (by norm_num : (0 : ℝ) ≤ 65534)])
      (by rw [div_le_one (by norm_num)]; exact hb2)]
    ring
  have hθ : Real.cos ((4 * N : ℕ) * quadAngle r N) = 1 := by
    rw [Real.cos_eq_one_iff]
    exact ⟨r, by rw [quadAngle]; push_cast; field_simp; ring⟩
  by_cases h1 : Real.cos ((4 * N : ℕ) * Real.arccos (b / 65534)) = 1
  · rcases boundary_of_cos_eq_one (4 * N) (by omega) b hb _ hφ h1 with rfl | rfl
    · have := margin_at_half r N hr h3
      refine le_trans ?_ (this.trans_eq (by norm_num))
      refine one_div_le_one_div_of_le (by positivity) (hsq.trans (le_mul_of_one_le_right (by positivity) ?_))
      linarith
    · omega
  · have key := margin_of_ne_one (4 * N) (by omega) b 32767 (by norm_num) _ _ (by simpa using hφ) hθ h1
    simp only [Int.cast_ofNat] at key
    exact key

end Sys2Proof.Machine
end

