-- ==== Sys2Proof/Laws/PhaseRound.lean ====
section
/-!
SUPPORT. The rounding of PhaseQ: where `roundAt` answers it answers the floor of R7, at a high enough precision it
answers, and so the sample of every first-quadrant angle is the rounded cosine and sine.
-/

namespace Sys2Proof.Machine

/-- The rounded component R7 asks for, of a value that is not negative. -/
noncomputable def roundReal (x : ℝ) : ℤ := ⌊x * 32767 + 1 / 2⌋

theorem floor_int_div (a b : ℤ) (hb : 0 < b) : ⌊(a : ℝ) / b⌋ = a / b := by
  have hb' : (0 : ℝ) < b := by exact_mod_cast hb
  rw [Int.floor_eq_iff]
  constructor
  · rw [le_div_iff₀ hb']
    exact_mod_cast Int.ediv_mul_le a hb.ne'
  · rw [div_lt_iff₀ hb']
    exact_mod_cast Int.lt_ediv_add_one_mul_self a hb

theorem roundQ_eq (S v : ℤ) (hS : 0 < S) : roundQ S v = roundReal ((v : ℝ) / S) := by
  have hS' : (0 : ℝ) < S := by exact_mod_cast hS
  rw [roundQ, roundReal, ← floor_int_div _ _ (by omega)]
  congr 1
  simp only [Config.qScale]
  push_cast
  field_simp
  ring

theorem roundReal_mono {x y : ℝ} (h : x ≤ y) : roundReal x ≤ roundReal y :=
  Int.floor_le_floor (by linarith)

/-- Where both ends of an enclosure round alike, so does everything between. -/
theorem round_of_enclosed (S v e : ℤ) (hS : 0 < S) (c : ℝ) (hc : |(v : ℝ) - S * c| ≤ e)
    (h : roundQ S (v - e) = roundQ S (v + e)) : roundQ S v = roundReal c := by
  have hS' : (0 : ℝ) < S := by exact_mod_cast hS
  rw [abs_le] at hc
  have he : 0 ≤ e := by
    have : (0 : ℝ) ≤ e := by linarith [hc.1, hc.2]
    exact_mod_cast this
  rw [roundQ_eq _ _ hS, roundQ_eq _ _ hS] at h
  rw [roundQ_eq _ _ hS]
  have h1 : roundReal (((v - e : ℤ) : ℝ) / S) ≤ roundReal c :=
    roundReal_mono (by rw [div_le_iff₀ hS']; push_cast; linarith)
  have h2 : roundReal c ≤ roundReal (((v + e : ℤ) : ℝ) / S) :=
    roundReal_mono (by rw [le_div_iff₀ hS']; push_cast; linarith)
  have h3 : roundReal (((v - e : ℤ) : ℝ) / S) ≤ roundReal ((v : ℝ) / S) :=
    roundReal_mono (by gcongr; omega)
  have h4 : roundReal ((v : ℝ) / S) ≤ roundReal (((v + e : ℤ) : ℝ) / S) :=
    roundReal_mono (by gcongr; omega)
  omega

/-- Away from every rounding boundary both ends of a narrow enclosure round alike. -/
theorem ends_round_alike (S v e : ℤ) (hS : 0 < S) (c : ℝ) (hc : |(v : ℝ) - S * c| ≤ e)
    (hm : ∀ b : ℤ, b % 2 = 1 → 4 * (e : ℝ) / S < |(b : ℝ) / 32767 - 2 * c|) :
    roundQ S (v - e) = roundQ S (v + e) := by
  have hS' : (0 : ℝ) < S := by exact_mod_cast hS
  rw [abs_le] at hc
  have he : 0 ≤ e := by
    have : (0 : ℝ) ≤ e := by linarith [hc.1, hc.2]
    exact_mod_cast this
  rw [roundQ_eq _ _ hS, roundQ_eq _ _ hS]
  have hle : roundReal (((v - e : ℤ) : ℝ) / S) ≤ roundReal (((v + e : ℤ) : ℝ) / S) :=
    roundReal_mono (by gcongr; omega)
  refine le_antisymm hle ?_
  by_contra hlt
  have hlt : roundReal (((v - e : ℤ) : ℝ) / S) < roundReal (((v + e : ℤ) : ℝ) / S) := not_le.1 hlt
  set m := roundReal (((v + e : ℤ) : ℝ) / S) with hmdef
  have hup : (m : ℝ) ≤ ((v + e : ℤ) : ℝ) / S * 32767 + 1 / 2 := Int.floor_le _
  have hlo : ((v - e : ℤ) : ℝ) / S * 32767 + 1 / 2 < m := Int.floor_lt.1 hlt
  have hb := hm (2 * m - 1) (by omega)
  have h1 : ((v + e : ℤ) : ℝ) / S ≤ c + 2 * (e / S) := by
    rw [div_le_iff₀ hS', add_mul, mul_assoc, div_mul_cancel₀ _ hS'.ne']
    push_cast; linarith
  have h2 : c - 2 * (e / S) ≤ ((v - e : ℤ) : ℝ) / S := by
    rw [le_div_iff₀ hS', sub_mul, mul_assoc, div_mul_cancel₀ _ hS'.ne']
    push_cast; linarith
  have h3 : |((2 * m - 1 : ℤ) : ℝ) / 32767 - 2 * c| ≤ 4 * (e : ℝ) / S := by
    rw [mul_div_assoc, abs_le]
    push_cast
    constructor <;> linarith
  linarith

/-- What `roundAt` answers is right. -/
theorem roundAt_sound (p r N : ℕ) (hp : 64 ≤ p) (hr : r < N) (q : Sample) (h : roundAt p r N = some q) :
    q = ⟨roundReal (Real.cos (quadAngle r N)), roundReal (Real.sin (quadAngle r N))⟩ := by
  have herr := enclose_error p r N hp hr
  simp only [roundAt] at h
  split at h
  · rename_i hends
    have hS : (0 : ℤ) < 2 ^ p := by positivity
    have hc := round_of_enclosed (2 ^ p) _ _ hS _ (by push_cast; exact herr.1) hends.1
    have hs := round_of_enclosed (2 ^ p) _ _ hS _ (by push_cast; exact herr.2) hends.2
    simp only [Option.some.injEq] at h
    rw [← h, hc, hs]
  · exact absurd h (by simp)

theorem cube_le_two_pow (q : ℕ) (hq : 64 ≤ q) : 2 ^ 16 * q ^ 3 ≤ 2 ^ q := by
  induction q, hq using Nat.le_induction with
  | base => norm_num
  | succ q hq ih =>
    have h : (q + 1) ^ 3 ≤ 2 * q ^ 3 := by nlinarith [sq_nonneg q, hq]
    rw [pow_succ 2 q]
    calc 2 ^ 16 * (q + 1) ^ 3 ≤ 2 ^ 16 * (2 * q ^ 3) := Nat.mul_le_mul_left _ h
      _ = 2 ^ 16 * q ^ 3 * 2 := by ring
      _ ≤ _ := Nat.mul_le_mul_right _ ih

/-- At this precision an enclosure is narrower than the margin. -/
theorem enclosure_narrow (p N : ℕ) (hN : 1 ≤ N) (hp : 128 * N ≤ p) :
    4 * ((encloseErr p : ℤ) : ℝ) / 2 ^ p < 1 / ((4 * N : ℕ) ^ 2 * (32767 : ℝ) ^ (4 * N)) := by
  have hN0 : (0 : ℝ) < N := by exact_mod_cast hN
  have herr : ((encloseErr p : ℤ) : ℝ) = 16 * p := by simp [encloseErr]
  rw [herr, div_lt_div_iff₀ (by positivity) (by positivity)]
  have hnat : 64 * p * ((4 * N) ^ 2 * 32767 ^ (4 * N)) < 2 ^ p := by
    have h1 : 32767 ^ (4 * N) ≤ 2 ^ (60 * N) := by
      calc 32767 ^ (4 * N) ≤ (2 ^ 15) ^ (4 * N) := Nat.pow_le_pow_left (by norm_num) _
        _ = 2 ^ (60 * N) := by rw [← pow_mul]; congr 1; ring
    have h2 : 2 ^ (60 * N) * 2 ^ (p / 2) ≤ 2 ^ p := by
      rw [← pow_add]
      exact Nat.pow_le_pow_right (by norm_num) (by omega)
    have h3 : 64 * p * (4 * N) ^ 2 < 2 ^ (p / 2) := by
      have h4 := cube_le_two_pow (p / 2) (by omega)
      have h5 : p ≤ 3 * (p / 2) := by omega
      have h6 : 4 * N ≤ p / 2 := by omega
      have h7 : 0 < p / 2 := by omega
      calc 64 * p * (4 * N) ^ 2 ≤ 64 * (3 * (p / 2)) * (p / 2) ^ 2 :=
            Nat.mul_le_mul (Nat.mul_le_mul_left _ h5) (Nat.pow_le_pow_left h6 2)
        _ = 192 * (p / 2) ^ 3 := by ring
        _ < 2 ^ 16 * (p / 2) ^ 3 := Nat.mul_lt_mul_of_pos_right (by norm_num) (by positivity)
        _ ≤ _ := h4
    calc _ = 64 * p * (4 * N) ^ 2 * 32767 ^ (4 * N) := by ring
      _ ≤ 64 * p * (4 * N) ^ 2 * 2 ^ (60 * N) := Nat.mul_le_mul_left _ h1
      _ < 2 ^ (p / 2) * 2 ^ (60 * N) := Nat.mul_lt_mul_of_pos_right h3 (by positivity)
      _ = 2 ^ (60 * N) * 2 ^ (p / 2) := by ring
      _ ≤ _ := h2
  have hreal : ((64 * p * ((4 * N) ^ 2 * 32767 ^ (4 * N)) : ℕ) : ℝ) < ((2 ^ p : ℕ) : ℝ) := by exact_mod_cast hnat
  push_cast at hreal ⊢
  linarith

theorem sin_quadAngle (r N : ℕ) (hr : r < N) :
    Real.sin (quadAngle r N) = Real.cos (quadAngle (N - r) N) := by
  have hN : (N : ℝ) ≠ 0 := by exact_mod_cast (by omega : N ≠ 0)
  rw [← Real.cos_pi_div_two_sub]
  congr 1
  rw [quadAngle, quadAngle, Nat.cast_sub hr.le]
  field_simp

/-- From this precision on `roundAt` answers, at every angle that is neither an axis nor a tie. -/
theorem roundAt_complete (p r N : ℕ) (hr0 : 0 < r) (hr : r < N) (h1 : 3 * r ≠ N) (h2 : 3 * r ≠ 2 * N)
    (hp : 128 * N ≤ p) : roundAt p r N ≠ none := by
  have hp64 : 64 ≤ p := by omega
  have herr := enclose_error p r N hp64 hr
  have hS : (0 : ℤ) < 2 ^ p := by positivity
  have hnarrow := enclosure_narrow p N (by omega) hp
  have hc := ends_round_alike (2 ^ p) _ _ hS _ (by push_cast; exact herr.1) fun b hb => by
    push_cast
    exact hnarrow.trans_le (cos_margin r N hr0 hr h2 b hb)
  have hs := ends_round_alike (2 ^ p) _ _ hS _ (by push_cast; exact herr.2) fun b hb => by
    push_cast
    rw [sin_quadAngle r N hr]
    exact hnarrow.trans_le (cos_margin (N - r) N (by omega) (by omega) (by omega) b hb)
  simp only [roundAt]
  rw [if_pos ⟨hc, hs⟩]
  simp

/-- `refine` ends with the right sample when its last precision is high enough. -/
theorem refine_exact (fuel p r N : ℕ) (hp : 64 ≤ p) (hr0 : 0 < r) (hr : r < N) (h1 : 3 * r ≠ N) (h2 : 3 * r ≠ 2 * N)
    (hlast : 128 * N ≤ 2 ^ fuel * p) :
    refine (fuel + 1) p r N
      = ⟨roundReal (Real.cos (quadAngle r N)), roundReal (Real.sin (quadAngle r N))⟩ := by
  induction fuel generalizing p with
  | zero =>
    rw [refine]
    cases hq : roundAt p r N with
    | none => exact absurd hq (roundAt_complete p r N hr0 hr h1 h2 (by simpa using hlast))
    | some q => exact roundAt_sound p r N hp hr q hq
  | succ fuel ih =>
    rw [refine]
    cases hq : roundAt p r N with
    | none => exact ih (2 * p) (by omega) (by rw [pow_succ] at hlast; linarith)
    | some q => exact roundAt_sound p r N hp hr q hq

theorem quadAngle_third (N : ℕ) (r : ℕ) (hN : 0 < N) (h : 3 * r = N) : quadAngle r N = Real.pi / 6 := by
  have hN' : (0 : ℝ) < N := by exact_mod_cast hN
  have : (r : ℝ) = N / 3 := by
    have : ((3 * r : ℕ) : ℝ) = N := by rw [h]
    push_cast at this; linarith
  rw [quadAngle, this]; field_simp; norm_num

theorem quadAngle_twoThirds (N : ℕ) (r : ℕ) (hN : 0 < N) (h : 3 * r = 2 * N) : quadAngle r N = Real.pi / 3 := by
  have hN' : (0 : ℝ) < N := by exact_mod_cast hN
  have : (r : ℝ) = 2 * N / 3 := by
    have : ((3 * r : ℕ) : ℝ) = (2 * N : ℕ) := by rw [h]
    push_cast at this; linarith
  rw [quadAngle, this]; field_simp

theorem roundReal_one : roundReal 1 = 32767 := by rw [roundReal, Int.floor_eq_iff]; norm_num

theorem roundReal_zero : roundReal 0 = 0 := by rw [roundReal, Int.floor_eq_iff]; norm_num

/-- The tie of R82: `1/2` rounds away from zero. -/
theorem roundReal_half : roundReal (1 / 2) = 16384 := by rw [roundReal, Int.floor_eq_iff]; norm_num

theorem roundReal_sqrt_three_half : roundReal (Real.sqrt 3 / 2) = 28377 := by
  have h1 : (1.73205 : ℝ) ≤ Real.sqrt 3 := Real.le_sqrt_of_sq_le (by norm_num)
  have h2 : Real.sqrt 3 ≤ 1.73206 := Real.sqrt_le_iff.2 ⟨by norm_num, by norm_num⟩
  rw [roundReal, Int.floor_eq_iff]
  constructor <;> push_cast <;> linarith

/-- The sample of every first-quadrant angle: its cosine and sine, rounded as R7 says. -/
theorem firstQuadrant_exact (r N : ℕ) (hr : r < N) :
    firstQuadrant r N = ⟨roundReal (Real.cos (quadAngle r N)), roundReal (Real.sin (quadAngle r N))⟩ := by
  have hN : 0 < N := by omega
  rw [firstQuadrant]
  split
  · rename_i h
    simp [h, quadAngle, roundReal_one, roundReal_zero]
  split
  · rename_i h
    rw [quadAngle_third N r hN h, Real.cos_pi_div_six, Real.sin_pi_div_six, roundReal_half,
      roundReal_sqrt_three_half]
  split
  · rename_i h
    rw [quadAngle_twoThirds N r hN h, Real.cos_pi_div_three, Real.sin_pi_div_three, roundReal_half,
      roundReal_sqrt_three_half]
  · refine refine_exact (N.log2 + 2) 64 r N le_rfl (by omega) hr (by assumption) (by assumption) ?_
    have h := Nat.lt_log2_self (n := N)
    rw [pow_add]
    omega

end Sys2Proof.Machine
end

