-- ==== Sys2Proof/Laws/Quantize.lean ====
section
/-!
SUPPORT. The laws of PQ.
-/

namespace Sys2Proof.Machine

/-- With no entries the quantizer is the default (R6). -/
@[simp] theorem quantize_nil : quantize [] = phaseQ := rfl

/-- What an entry that is taken is like. -/
theorem QuantEntry.taken {x : QuantEntry} {n N : Int} (h : (x.admitted && x.isFor n N) = true) :
    ((-32767 ≤ x.sample.cos ∧ x.sample.cos ≤ 32767) ∧ (-32767 ≤ x.sample.sin ∧ x.sample.sin ≤ 32767)) ∧
    4 * wrap n N % N ≠ 0 ∧ x.num = wrap n N ∧ x.den = N := by
  simp only [QuantEntry.admitted, QuantEntry.isFor, Bool.and_eq_true, decide_eq_true_eq] at h
  obtain ⟨⟨h1, h2, h3, h4, h5⟩, h6, h7⟩ := h
  exact ⟨⟨⟨h1, h2⟩, h3, h4⟩, by rw [← h6]; rwa [h7] at h5, h6, h7⟩

/-- Everything the quantizer can answer: the sample of an entry for the angle, which is no multiple of a quarter turn, or
`PhaseQ`. -/
theorem quantize_cases (l : List QuantEntry) (n N : Int) :
    (∃ x ∈ l, (x.admitted && x.isFor n N) = true ∧ quantize l n N = x.sample) ∨ quantize l n N = phaseQ n N := by
  unfold quantize
  cases h : l.find? fun x => x.admitted && x.isFor n N with
  | none => exact .inr rfl
  | some x => exact .inl ⟨x, List.mem_of_find?_eq_some h, List.find?_some (p := fun x : QuantEntry => x.admitted && x.isFor n N) h, rfl⟩

/-- At the multiples of a quarter turn every quantizer is `PhaseQ`. -/
theorem quantize_quadrant (l : List QuantEntry) (n N : Int) (h : 4 * wrap n N % N = 0) :
    quantize l n N = phaseQ n N := by
  rcases quantize_cases l n N with ⟨x, -, hx, -⟩ | hq
  · exact absurd h (QuantEntry.taken hx).2.1
  · exact hq

/-- Whole turns do not count (P-period of R84). -/
theorem quantize_emod (l : List QuantEntry) (n N : Int) (hN : 0 < N) : quantize l (n % N) N = quantize l n N := by
  have h1 : wrap (n % N) N = wrap n N := by rw [wrap_eq_emod _ N hN, wrap_eq_emod n N hN, Int.emod_emod]
  have h2 : phaseQ (n % N) N = phaseQ n N := by simp only [phaseQ, Int.emod_emod]
  simp only [quantize, QuantEntry.isFor, h1, h2]

/-- When PQ runs (R80). -/
theorem checkPq_ok (r : Regs) : firstFailed (checkPq r) = none ↔ 0 < r.fftN := by
  rw [firstFailed_eq_none_iff]; simp [checkPq]

/-- Everything PQ can do. -/
theorem execPqWith_cases (q : Quantizer) (s : State) :
    (∃ c, firstFailed (checkPq s.regs) = some c ∧ execPqWith q s = .next (s.raise c)) ∨
    (0 < s.regs.fftN ∧ execPqWith q s =
      .next ((s.putSample (q s.regs.a0 s.regs.fftN)).putIndex (wrap s.regs.a0 s.regs.fftN)).succeed) := by
  unfold execPqWith
  cases h : firstFailed (checkPq s.regs) with
  | some c => exact .inl ⟨c, rfl, rfl⟩
  | none => exact .inr ⟨(checkPq_ok s.regs).1 h, rfl⟩

end Sys2Proof.Machine
end

