-- ==== Sys2Proof/Laws/Remap.lean ====
section
/-!
SUPPORT. The laws of the remapper and of SCBIN.
-/

namespace Sys2Proof.Machine

theorem bin_of_domain {N NSC k : Int} (h : BinDomain N NSC k) :
    bin N NSC k = some (if k < NSC / 2 then k + (N - NSC / 2) else k - NSC / 2) := if_pos h

theorem bin_outside {N NSC k : Int} (h : ¬BinDomain N NSC k) : bin N NSC k = none := if_neg h

theorem bin_eq_some {N NSC k b : Int} (h : bin N NSC k = some b) :
    BinDomain N NSC k ∧ 0 ≤ b ∧ b < N ∧ b = (k - NSC / 2) % N := by
  by_cases hd : BinDomain N NSC k
  · rw [bin_of_domain hd, Option.some.injEq] at h
    obtain ⟨h1, h2, h3, h4, h5⟩ := hd
    refine ⟨⟨h1, h2, h3, h4, h5⟩, ?_⟩
    subst h
    split
    · have : (k - NSC / 2) % N = k - NSC / 2 + N := by
        rw [← Int.add_emod_right, Int.emod_eq_of_lt] <;> omega
      omega
    · have : (k - NSC / 2) % N = k - NSC / 2 := by rw [Int.emod_eq_of_lt] <;> omega
      omega
  · rw [bin_outside hd] at h; simp at h

/-- When SCBIN runs (R91). -/
theorem checkScbin_ok (r : Regs) : firstFailed (checkScbin r) = none ↔ BinDomain r.fftN r.nsc r.a0 := by
  rw [firstFailed_eq_none_iff]
  simp only [checkScbin, checkNsc, BinDomain, List.cons_append, List.nil_append, List.mem_cons, List.not_mem_nil, or_false,
    forall_eq_or_imp, forall_eq, decide_eq_false_iff_not, Bool.or_eq_false_iff]
  omega

/-- Everything SCBIN can do. -/
theorem execScbin_cases (s : State) :
    (∃ c, firstFailed (checkScbin s.regs) = some c ∧ execScbin s = .next (s.raise c)) ∨
    (∃ b, BinDomain s.regs.fftN s.regs.nsc s.regs.a0 ∧ bin s.regs.fftN s.regs.nsc s.regs.a0 = some b ∧
      execScbin s = .next (s.putIndex b).succeed) := by
  unfold execScbin
  cases h : firstFailed (checkScbin s.regs) with
  | some c => exact .inl ⟨c, rfl, rfl⟩
  | none =>
    have hd := (checkScbin_ok s.regs).1 h
    rw [bin_of_domain hd]
    exact .inr ⟨_, hd, rfl, rfl⟩

end Sys2Proof.Machine
end

