-- ==== Sys2Proof/Laws/Timing.lean ====
section
/-!
SUPPORT. The laws of the timing-alignment commands TALKUP and TAGEN.
-/

namespace Sys2Proof.Machine

theorem checkNsc_ok (r : Regs) :
    firstFailed (checkNsc r) = none ↔ 0 < r.nsc ∧ r.nsc % 2 = 0 ∧ r.nsc ≤ r.fftN := by
  rw [firstFailed_eq_none_iff]
  simp only [checkNsc, List.mem_cons, List.not_mem_nil, or_false, forall_eq_or_imp, forall_eq, decide_eq_false_iff_not]
  omega

theorem checkTA_ok (r : Regs) : firstFailed (checkTA r) = none ↔ ValidTA r := by
  rw [checkTA, firstFailed_append, Option.or_eq_none_iff, checkNsc_ok, firstFailed_eq_none_iff]
  simp [ValidTA, and_assoc, isPow2_iff]

theorem checkMax_ok (s : State) : firstFailed (checkMax s) = none ↔ s.regs.fftN ≤ s.maxFft := by
  rw [firstFailed_eq_none_iff]; simp [checkMax]

/-- When TALKUP runs (R102). -/
theorem checkTalkup_ok (s : State) :
    firstFailed (checkTalkup s) = none ↔
      ValidTA s.regs ∧ (-s.regs.cp ≤ s.regs.a0 ∧ s.regs.a0 ≤ s.regs.cp) ∧
      (0 ≤ s.regs.a1 ∧ s.regs.a1 < s.regs.nsc) ∧ s.regs.fftN ≤ s.maxFft := by
  rw [checkTalkup, firstFailed_append, firstFailed_append, Option.or_eq_none_iff, Option.or_eq_none_iff, checkTA_ok,
    checkMax_ok, firstFailed_eq_none_iff]
  simp [and_assoc]

/-- When TAGEN runs (R106). -/
theorem checkTagen_ok (s : State) : firstFailed (checkTagen s) = none ↔ ValidTA s.regs ∧ ResourceTA s := by
  rw [checkTagen, firstFailed_append, firstFailed_append, Option.or_eq_none_iff, Option.or_eq_none_iff, checkTA_ok,
    checkMax_ok, checkBuffer_ok]
  simp [ResourceTA, reqTA, and_assoc]

theorem ValidTA.binDomain {r : Regs} (h : ValidTA r) {k : Int} (h0 : 0 ≤ k) (h1 : k < r.nsc) :
    BinDomain r.fftN r.nsc k := ⟨h.2.2.2.2.1, h.2.2.2.1, h.2.2.2.2.2, h0, h1⟩

/-- Everything TALKUP can do. -/
theorem execTalkupWith_cases (q : Quantizer) (s : State) :
    (∃ c, firstFailed (checkTalkup s) = some c ∧ execTalkupWith q s = .next (s.raise c)) ∨
    (∃ b, firstFailed (checkTalkup s) = none ∧ bin s.regs.fftN s.regs.nsc s.regs.a1 = some b ∧
      execTalkupWith q s = .next
        ((s.putIndex (tableIndex s.regs.fftN b s.regs.a0)).putSample
          (q (tableIndex s.regs.fftN b s.regs.a0) s.regs.fftN)).succeed) := by
  unfold execTalkupWith
  cases h : firstFailed (checkTalkup s) with
  | some c => exact .inl ⟨c, rfl, rfl⟩
  | none =>
    have hd := (checkTalkup_ok s).1 h
    rw [bin_of_domain (hd.1.binDomain hd.2.2.1.1 hd.2.2.1.2)]
    exact .inr ⟨_, rfl, rfl, rfl⟩

theorem allSome_map_some {α β : Type} (f : α → β) (l : List α) :
    allSome (l.map fun a => some (f a)) = some (l.map f) := by
  induction l with
  | nil => rfl
  | cons a l ih => simp [allSome, ih]

/-- The bin table of a valid request has every subcarrier with its bin, and nothing else. -/
theorem binTable_of_valid (N NSC : Int) (h2 : NSC % 2 = 0) (h0 : 0 < NSC) (hN : NSC ≤ N) :
    ∃ bins, binTable N NSC = some bins ∧
      ∀ k b, (k, b) ∈ bins ↔ bin N NSC k = some b := by
  refine ⟨(forRange 0 (NSC - 1)).map fun k => (k, if k < NSC / 2 then k + (N - NSC / 2) else k - NSC / 2), ?_, ?_⟩
  · rw [binTable, ← allSome_map_some]
    congr 1
    refine List.map_congr_left fun k hk => ?_
    rw [mem_forRange] at hk
    rw [bin_of_domain ⟨h2, h0, hN, hk.1, by omega⟩]
    rfl
  · intro k b
    simp only [List.mem_map, mem_forRange, Prod.mk.injEq]
    constructor
    · rintro ⟨k', hk', rfl, rfl⟩
      exact bin_of_domain ⟨h2, h0, hN, hk'.1, by omega⟩
    · intro h
      have hd := (bin_eq_some h).1
      rw [bin_of_domain hd, Option.some.injEq] at h
      exact ⟨k, ⟨hd.2.2.2.1, by have := hd.2.2.2.2; omega⟩, rfl, h⟩

/-- Everything TAGEN can do. -/
theorem execTagenWith_cases (q : Quantizer) (s : State) :
    (∃ c, firstFailed (checkTagen s) = some c ∧ execTagenWith q s = .next (s.raise c)) ∨
    (∃ bins, (ValidTA s.regs ∧ ResourceTA s) ∧ (∀ k b, (k, b) ∈ bins ↔ bin s.regs.fftN s.regs.nsc k = some b) ∧
      execTagenWith q s = s.writeTable (writesTA q s.regs.fftN s.regs.cp s.regs.nsc s.regs.d bins)) := by
  unfold execTagenWith
  cases h : firstFailed (checkTagen s) with
  | some c => exact .inl ⟨c, rfl, rfl⟩
  | none =>
    have hd := (checkTagen_ok s).1 h
    obtain ⟨bins, hb, hmem⟩ := binTable_of_valid _ _ hd.1.2.2.2.2.1 hd.1.2.2.2.1 hd.1.2.2.2.2.2
    rw [hb]
    exact .inr ⟨bins, hd, hmem, rfl⟩

/-! The layout of R44 -/

theorem pairTA_cast (CP NSC t k : Int) (ht : -CP ≤ t) (h0 : 0 < NSC) (hk : 0 ≤ k) :
    (pairTA CP NSC t k : Int) = (t + CP) * NSC + k := by
  rw [pairTA, Int.toNat_of_nonneg]
  have : 0 ≤ (t + CP) * NSC := mul_nonneg (by omega) h0.le
  omega

/-- Every pair number is below the required capacity. -/
theorem pairTA_lt (CP NSC t k : Int) (ht : -CP ≤ t) (ht' : t ≤ CP) (h0 : 0 < NSC) (hk : 0 ≤ k) (hk' : k < NSC) :
    (pairTA CP NSC t k : Int) < (2 * CP + 1) * NSC := by
  rw [pairTA_cast CP NSC t k ht h0 hk]
  have : (t + CP) * NSC ≤ 2 * CP * NSC := mul_le_mul_of_nonneg_right (by omega) h0.le
  have : (2 * CP + 1) * NSC = 2 * CP * NSC + NSC := by ring
  omega

/-- A pair number determines its timing offset and its subcarrier. -/
theorem pairTA_inj (CP NSC t k t' k' : Int) (ht : -CP ≤ t) (ht' : -CP ≤ t') (hk : 0 ≤ k) (hkN : k < NSC)
    (hk' : 0 ≤ k') (hkN' : k' < NSC) (h : pairTA CP NSC t k = pairTA CP NSC t' k') : t = t' ∧ k = k' := by
  have h0 : 0 < NSC := by omega
  have h1 : (t + CP) * NSC + k = (t' + CP) * NSC + k' := by
    rw [← pairTA_cast CP NSC t k ht h0 hk, ← pairTA_cast CP NSC t' k' ht' h0 hk', h]
  have hdiv : ∀ u j : Int, 0 ≤ j → j < NSC → (u * NSC + j) / NSC = u := by
    intro u j hj hjN
    rw [add_comm, Int.add_mul_ediv_right _ _ h0.ne', Int.ediv_eq_zero_of_lt hj hjN, zero_add]
  have h2 : t + CP = t' + CP := by
    rw [← hdiv (t + CP) k hk hkN, h1, hdiv _ _ hk' hkN']
  have h3 : t = t' := by omega
  subst h3
  exact ⟨rfl, by omega⟩

/-- Every pair number below the required capacity belongs to a timing offset and a subcarrier. -/
theorem pairTA_surj (CP NSC : Int) (h0 : 0 < NSC) (p : Nat) (hp : (p : Int) < (2 * CP + 1) * NSC) :
    ∃ t k : Int, -CP ≤ t ∧ t ≤ CP ∧ 0 ≤ k ∧ k < NSC ∧ pairTA CP NSC t k = p := by
  have hm := Int.emod_nonneg (p : Int) h0.ne'
  have hl := Int.emod_lt_of_pos (p : Int) h0
  have hd : 0 ≤ (p : Int) / NSC := Int.ediv_nonneg (by omega) h0.le
  have hlt : (p : Int) / NSC < 2 * CP + 1 := Int.ediv_lt_of_lt_mul h0 hp
  have he := Int.mul_ediv_add_emod (p : Int) NSC
  refine ⟨(p : Int) / NSC - CP, (p : Int) % NSC, by omega, by omega, hm, hl, ?_⟩
  have := pairTA_cast CP NSC ((p : Int) / NSC - CP) ((p : Int) % NSC) (by omega) h0 hm
  have h2 : ((p : Int) / NSC - CP + CP) * NSC = NSC * ((p : Int) / NSC) := by ring
  omega

/-! The cell writes of TAGEN -/

theorem mem_writesTA (q : Quantizer) (N CP NSC : Int) (D : Nat) (bins : List (Int × Int)) (w : Nat × Cell) :
    w ∈ writesTA q N CP NSC D bins ↔
      ∃ t k b, (-CP ≤ t ∧ t ≤ CP) ∧ (k, b) ∈ bins ∧
        (w = (D + 2 * pairTA CP NSC t k, enc16 (q (tableIndex N b t) N).cos) ∨
         w = (D + 2 * pairTA CP NSC t k + 1, enc16 (q (tableIndex N b t) N).sin)) := by
  simp only [writesTA, List.mem_flatMap, mem_forRange, mem_pairWrites]
  constructor
  · rintro ⟨t, ht, ⟨k, b⟩, hkb, hw⟩; exact ⟨t, k, b, ht, hkb, hw⟩
  · rintro ⟨t, k, b, ht, hkb, hw⟩; exact ⟨t, ht, (k, b), hkb, hw⟩

section

variable {q : Quantizer} {s : State} {bins : List (Int × Int)}

/-- Every cell TAGEN writes is one of cells `D .. D + 2 REQ - 1` (R46). -/
theorem writesTA_range (hv : ValidTA s.regs) (hb : ∀ k b, (k, b) ∈ bins ↔ bin s.regs.fftN s.regs.nsc k = some b)
    {w : Nat × Cell} (hw : w ∈ writesTA q s.regs.fftN s.regs.cp s.regs.nsc s.regs.d bins) :
    s.regs.d ≤ w.1 ∧ (w.1 : Int) < s.regs.d + 2 * reqTA s.regs := by
  obtain ⟨t, k, b, ht, hkb, hw⟩ := (mem_writesTA ..).1 hw
  have hd := (bin_eq_some ((hb k b).1 hkb)).1
  have hlt := pairTA_lt s.regs.cp s.regs.nsc t k ht.1 ht.2 hv.2.2.2.1 hd.2.2.2.1 hd.2.2.2.2
  rw [reqTA]
  rcases hw with rfl | rfl <;> constructor <;> push_cast <;> omega

/-- Every cell TAGEN writes is a cell of table memory. -/
theorem writesTA_cells (hv : ValidTA s.regs) (hr : ResourceTA s)
    (hb : ∀ k b, (k, b) ∈ bins ↔ bin s.regs.fftN s.regs.nsc k = some b) :
    ∀ w ∈ writesTA q s.regs.fftN s.regs.cp s.regs.nsc s.regs.d bins, w.1 < Config.tmCells := by
  intro w hw
  have h1 := (writesTA_range hv hb hw).2
  have h2 := hr.2.2
  rw [reqTA] at h1
  rw [Config.tmCells]; omega

/-- What TAGEN leaves in the two cells of an entry (R106). -/
theorem writesTA_read (hb : ∀ k b, (k, b) ∈ bins ↔ bin s.regs.fftN s.regs.nsc k = some b)
    (init : TableInit) (m : TableMemory) (t k b : Int) (ht : -s.regs.cp ≤ t ∧ t ≤ s.regs.cp)
    (hk : bin s.regs.fftN s.regs.nsc k = some b) :
    TableMemory.read init (s.regs.d + 2 * pairTA s.regs.cp s.regs.nsc t k)
        (TableMemory.writeAll init (writesTA q s.regs.fftN s.regs.cp s.regs.nsc s.regs.d bins) m)
      = enc16 (q (tableIndex s.regs.fftN b t) s.regs.fftN).cos ∧
    TableMemory.read init (s.regs.d + 2 * pairTA s.regs.cp s.regs.nsc t k + 1)
        (TableMemory.writeAll init (writesTA q s.regs.fftN s.regs.cp s.regs.nsc s.regs.d bins) m)
      = enc16 (q (tableIndex s.regs.fftN b t) s.regs.fftN).sin := by
  have hd := (bin_eq_some hk).1
  have hone : ∀ t' k' b', (-s.regs.cp ≤ t' ∧ t' ≤ s.regs.cp) → (k', b') ∈ bins →
      pairTA s.regs.cp s.regs.nsc t' k' = pairTA s.regs.cp s.regs.nsc t k → t' = t ∧ b' = b := by
    intro t' k' b' ht' hkb' hp
    have hbin := (hb k' b').1 hkb'
    have hd' := (bin_eq_some hbin).1
    obtain ⟨rfl, rfl⟩ := pairTA_inj _ _ _ _ _ _ ht'.1 ht.1 hd'.2.2.2.1 hd'.2.2.2.2 hd.2.2.2.1 hd.2.2.2.2 hp
    exact ⟨rfl, Option.some.inj (hbin.symm.trans hk)⟩
  constructor
  · refine TableMemory.read_writeAll_of_agree _ _ _ _ _
      ((mem_writesTA ..).2 ⟨t, k, b, ht, (hb k b).2 hk, .inl rfl⟩) fun w hw hwa => ?_
    obtain ⟨t', k', b', ht', hkb', rfl | rfl⟩ := (mem_writesTA ..).1 hw
    · obtain ⟨rfl, rfl⟩ := hone t' k' b' ht' hkb' (by simp only at hwa; omega)
      rfl
    · simp only at hwa; omega
  · refine TableMemory.read_writeAll_of_agree _ _ _ _ _
      ((mem_writesTA ..).2 ⟨t, k, b, ht, (hb k b).2 hk, .inr rfl⟩) fun w hw hwa => ?_
    obtain ⟨t', k', b', ht', hkb', rfl | rfl⟩ := (mem_writesTA ..).1 hw
    · simp only at hwa; omega
    · obtain ⟨rfl, rfl⟩ := hone t' k' b' ht' hkb' (by simp only at hwa; omega)
      rfl

end

end Sys2Proof.Machine
end

