-- ==== Sys2Proof/Laws/Exec.lean ====
section
/-!
SUPPORT. What a command and a host transaction can do, said once. A command is a function of the registers of its
instance and of MAX_FFT: it leaves new registers and a list of cell writes (`runCommand_effect`).
-/

namespace Sys2Proof.Machine

/-! The range of the quantizer -/

theorem roundReal_range {x : ℝ} (h0 : 0 ≤ x) (h1 : x ≤ 1) : 0 ≤ roundReal x ∧ roundReal x ≤ 32767 := by
  have := roundReal_mono h0
  have := roundReal_mono h1
  rw [roundReal_zero] at *
  rw [roundReal_one] at *
  constructor <;> assumption

/-- Both components of a first-quadrant sample lie in `[0, 32767]`. -/
theorem firstQuadrant_range (r N : ℕ) (hr : r < N) :
    0 ≤ (firstQuadrant r N).cos ∧ (firstQuadrant r N).cos ≤ 32767 ∧
    0 ≤ (firstQuadrant r N).sin ∧ (firstQuadrant r N).sin ≤ 32767 := by
  obtain ⟨h0, h1⟩ := quadAngle_bounds r N hr
  have hpi := Real.pi_pos
  have hc := roundReal_range (Real.cos_nonneg_of_neg_pi_div_two_le_of_le (by linarith) h1)
    (Real.cos_le_one (quadAngle r N))
  have hs := roundReal_range (Real.sin_nonneg_of_nonneg_of_le_pi h0 (by linarith)) (Real.sin_le_one (quadAngle r N))
  rw [firstQuadrant_exact r N hr]
  exact ⟨hc.1, hc.2, hs.1, hs.2⟩

theorem quarterTurns_range (j : ℕ) (q : Sample) (hc : 0 ≤ q.cos ∧ q.cos ≤ 32767) (hs : 0 ≤ q.sin ∧ q.sin ≤ 32767) :
    (-32767 ≤ (quarterTurns j q).cos ∧ (quarterTurns j q).cos ≤ 32767) ∧
    (-32767 ≤ (quarterTurns j q).sin ∧ (quarterTurns j q).sin ≤ 32767) := by
  unfold quarterTurns
  split <;> (try dsimp only) <;> omega

theorem phaseQ_range (n N : Int) (hN : 0 < N) :
    (-32767 ≤ (phaseQ n N).cos ∧ (phaseQ n N).cos ≤ 32767) ∧
    (-32767 ≤ (phaseQ n N).sin ∧ (phaseQ n N).sin ≤ 32767) := by
  have h := firstQuadrant_range (4 * (n % N).toNat % N.toNat) N.toNat (Nat.mod_lt _ (by omega))
  exact quarterTurns_range _ _ ⟨h.1, h.2.1⟩ ⟨h.2.2.1, h.2.2.2⟩

/-- No component of a sample is `-32768` (R42), whatever the platform's quantizer. -/
theorem quantize_range (l : List QuantEntry) (n N : Int) (hN : 0 < N) :
    (-32767 ≤ (quantize l n N).cos ∧ (quantize l n N).cos ≤ 32767) ∧
    (-32767 ≤ (quantize l n N).sin ∧ (quantize l n N).sin ≤ 32767) := by
  rcases quantize_cases l n N with ⟨x, -, hx, h⟩ | h <;> rw [h]
  · exact (QuantEntry.taken hx).1
  · exact phaseQ_range n N hN

/-! The causes a command can end with -/

/-- A cause that a decoded command can report: of the classes INVALID_CONFIG and RESOURCE (R142). -/
def Cause.ofCommand (c : Cause) : Prop := c.code = .invalidConfig ∨ c.code = .resource

theorem checks_cause (l : List (Bool × Cause)) (h : ∀ x ∈ l, x.2.ofCommand) {c : Cause} (hc : firstFailed l = some c) :
    c.ofCommand := h _ (firstFailed_mem hc)

theorem checkPq_cause (r : Regs) : ∀ x ∈ checkPq r, x.2.ofCommand := by
  simp [checkPq, Cause.ofCommand, Cause.code]

theorem checkScbin_cause (r : Regs) : ∀ x ∈ checkScbin r, x.2.ofCommand := by
  simp [checkScbin, checkNsc, Cause.ofCommand, Cause.code]

theorem checkTalkup_cause (s : State) : ∀ x ∈ checkTalkup s, x.2.ofCommand := by
  simp [checkTalkup, checkTA, checkNsc, checkMax, Cause.ofCommand, Cause.code]

theorem checkTagen_cause (s : State) : ∀ x ∈ checkTagen s, x.2.ofCommand := by
  simp [checkTagen, checkTA, checkNsc, checkMax, checkBuffer, Cause.ofCommand, Cause.code]

theorem checkFogen_cause (r : Regs) : ∀ x ∈ checkFogen r, x.2.ofCommand := by
  simp [checkFogen, checkFO, checkBuffer, Cause.ofCommand, Cause.code]

theorem statusWord_ne_zero {c : Cause} (h : c.ofCommand) : statusWord c ≠ 0 := by
  cases c <;> simp [Cause.ofCommand, Cause.code] at h <;> decide

/-! The effect of a command -/

/-- What the effect of a command on the registers `r0` is like: new registers `r`, cell writes `ws`. -/
structure Effect (r0 r : Regs) (ws : List (Nat × Cell)) : Prop where
  /-- No command writes a request or operand register (R13 to R19). -/
  request : r.fftSize = r0.fftSize ∧ r.cpLen = r0.cpLen ∧ r.numSc = r0.numSc ∧ r.arg0 = r0.arg0 ∧ r.arg1 = r0.arg1 ∧
    r.dst = r0.dst ∧ r.cap = r0.cap
  /-- It succeeds, or it reports a cause and does nothing else (R150). -/
  status : r.status = 0 ∨ ∃ c : Cause, c.ofCommand ∧ r = { r0 with status := statusWord c } ∧ ws = []
  /-- It writes cells of the declared buffer only (R46, R156), and never `0x8000` (R42). -/
  cells : ∀ w ∈ ws, r0.d ≤ w.1 ∧ w.1 < r0.d + 2 * r0.capPairs ∧ w.1 < Config.tmCells ∧ w.2 ≠ 0x8000
  /-- The sample registers keep their values, or hold a sample (R20, R21). -/
  sample : (r.resCos = r0.resCos ∧ r.resSin = r0.resSin) ∨
    ((-32767 ≤ r.resCos.toInt ∧ r.resCos.toInt ≤ 32767) ∧ (-32767 ≤ r.resSin.toInt ∧ r.resSin.toInt ≤ 32767))
  /-- The index register keeps its value, or holds an index (R22). -/
  index : r.resIdx = r0.resIdx ∨ r.resIdx.getLsbD 31 = false

theorem Effect.raised (r0 : Regs) (c : Cause) (h : c.ofCommand) : Effect r0 { r0 with status := statusWord c } [] where
  request := ⟨rfl, rfl, rfl, rfl, rfl, rfl, rfl⟩
  status := .inr ⟨c, h, rfl, rfl⟩
  cells := by simp
  sample := .inl ⟨rfl, rfl⟩
  index := .inl rfl

theorem Effect.table (r0 : Regs) (ws : List (Nat × Cell))
    (h : ∀ w ∈ ws, r0.d ≤ w.1 ∧ w.1 < r0.d + 2 * r0.capPairs ∧ w.1 < Config.tmCells ∧ w.2 ≠ 0x8000) :
    Effect r0 { r0 with status := 0 } ws where
  request := ⟨rfl, rfl, rfl, rfl, rfl, rfl, rfl⟩
  status := .inl rfl
  cells := h
  sample := .inl ⟨rfl, rfl⟩
  index := .inl rfl

theorem sample_registers (q : Sample) (hc : -32767 ≤ q.cos ∧ q.cos ≤ 32767) (hs : -32767 ≤ q.sin ∧ q.sin ≤ 32767) :
    (-32767 ≤ (sext32 (enc16 q.cos)).toInt ∧ (sext32 (enc16 q.cos)).toInt ≤ 32767) ∧
    (-32767 ≤ (sext32 (enc16 q.sin)).toInt ∧ (sext32 (enc16 q.sin)).toInt ≤ 32767) := by
  rw [toInt_sext32_enc16 _ (by omega) (by omega), toInt_sext32_enc16 _ (by omega) (by omega)]
  exact ⟨hc, hs⟩

theorem fftN_lt (r : Regs) : r.fftN < 2 ^ 31 := word_toInt_lt r.fftSize

/-- A command is a function of its instance's registers, MAX_FFT and the quantizer: whatever the rest of the state, it
leaves the same registers and makes the same cell writes. -/
theorem runCommand_effect (c : Command) (r0 : Regs) (maxFft : Nat) (qs : List QuantEntry) :
    ∃ r ws, Effect r0 r ws ∧ ∀ s : State, s.regs = r0 → s.maxFft = maxFft → s.quant = qs →
      runCommand c s = .next { s with regs := r, tm := TableMemory.writeAll s.tmInit ws s.tm } := by
  cases c with
  | nop =>
    refine ⟨_, [], Effect.table r0 [] (by simp), ?_⟩
    rintro s rfl - -; rfl
  | pq =>
    cases h : firstFailed (checkPq r0) with
    | some e =>
      refine ⟨_, _, Effect.raised r0 e (checks_cause _ (checkPq_cause _) h), ?_⟩
      rintro s rfl - rfl
      simp only [runCommand, execPq, execPqWith, h]; rfl
    | none =>
      have hN := (checkPq_ok r0).1 h
      have hq := quantize_range qs r0.a0 r0.fftN hN
      refine ⟨{ r0 with
          status := 0,
          resCos := sext32 (enc16 (quantize qs r0.a0 r0.fftN).cos),
          resSin := sext32 (enc16 (quantize qs r0.a0 r0.fftN).sin),
          resIdx := u32 (wrap r0.a0 r0.fftN) }, [], ?_, ?_⟩
      · refine ⟨⟨rfl, rfl, rfl, rfl, rfl, rfl, rfl⟩, .inl rfl, by simp, .inr (sample_registers _ hq.1 hq.2), .inr ?_⟩
        exact getLsbD_u32 _ (wrap_nonneg _ _ hN) ((wrap_lt _ _ hN).trans (fftN_lt r0))
      · rintro s rfl - rfl
        simp only [runCommand, execPq, execPqWith, h]; rfl
  | scbin =>
    cases h : firstFailed (checkScbin r0) with
    | some e =>
      refine ⟨_, _, Effect.raised r0 e (checks_cause _ (checkScbin_cause _) h), ?_⟩
      rintro s rfl - rfl
      simp only [runCommand, execScbin, h]; rfl
    | none =>
      have hd := (checkScbin_ok r0).1 h
      obtain ⟨b, hb⟩ : ∃ b, bin r0.fftN r0.nsc r0.a0 = some b := ⟨_, bin_of_domain hd⟩
      have hr := bin_eq_some hb
      refine ⟨{ r0 with status := 0, resIdx := u32 b }, [], ?_, ?_⟩
      · exact ⟨⟨rfl, rfl, rfl, rfl, rfl, rfl, rfl⟩, .inl rfl, by simp, .inl ⟨rfl, rfl⟩,
          .inr (getLsbD_u32 _ hr.2.1 (hr.2.2.1.trans (fftN_lt r0)))⟩
      · rintro s rfl - rfl
        simp only [runCommand, execScbin, h, hb]; rfl
  | talkup =>
    have hcheck : ∀ s : State, s.regs = r0 → s.maxFft = maxFft →
        checkTalkup s = checkTA r0 ++
          [(decide (r0.a0 < -r0.cp) || decide (r0.a0 > r0.cp), .arg0Range),
           (decide (r0.a1 < 0) || decide (r0.a1 ≥ r0.nsc), .arg1Range)] ++ [(decide (r0.fftN > maxFft), .fftGtMax)] := by
      rintro s rfl rfl; rfl
    cases h : firstFailed (checkTA r0 ++
          [(decide (r0.a0 < -r0.cp) || decide (r0.a0 > r0.cp), .arg0Range),
           (decide (r0.a1 < 0) || decide (r0.a1 ≥ r0.nsc), .arg1Range)] ++ [(decide (r0.fftN > maxFft), .fftGtMax)]) with
    | some e =>
      refine ⟨_, _, Effect.raised r0 e ?_, ?_⟩
      · refine checks_cause _ ?_ h
        simp [checkTA, checkNsc, Cause.ofCommand, Cause.code]
      · intro s hs hm hl
        simp only [runCommand, execTalkup, execTalkupWith, hcheck s hs hm, h]
        subst hs hl; rfl
    | none =>
      have hd := (checkTalkup_ok { State.reset with regs := r0, maxFft := maxFft }).1
        ((congrArg firstFailed (hcheck _ rfl rfl)).trans h)
      simp only at hd
      obtain ⟨b, hb⟩ : ∃ b, bin r0.fftN r0.nsc r0.a1 = some b :=
        ⟨_, bin_of_domain (hd.1.binDomain hd.2.2.1.1 hd.2.2.1.2)⟩
      have hN := hd.1.1
      have hq := quantize_range qs (tableIndex r0.fftN b r0.a0) r0.fftN hN
      refine ⟨{ r0 with
          status := 0,
          resIdx := u32 (tableIndex r0.fftN b r0.a0),
          resCos := sext32 (enc16 (quantize qs (tableIndex r0.fftN b r0.a0) r0.fftN).cos),
          resSin := sext32 (enc16 (quantize qs (tableIndex r0.fftN b r0.a0) r0.fftN).sin) }, [], ?_, ?_⟩
      · refine ⟨⟨rfl, rfl, rfl, rfl, rfl, rfl, rfl⟩, .inl rfl, by simp, .inr (sample_registers _ hq.1 hq.2), .inr ?_⟩
        exact getLsbD_u32 _ (wrap_nonneg _ _ hN) ((wrap_lt _ _ hN).trans (fftN_lt r0))
      · intro s hs hm hl
        simp only [runCommand, execTalkup, execTalkupWith, hcheck s hs hm, h]
        subst hs hl
        simp only [hb]; rfl
  | tagen =>
    have hcheck : ∀ s : State, s.regs = r0 → s.maxFft = maxFft →
        checkTagen s = checkTA r0 ++ [(decide (r0.fftN > maxFft), .fftGtMax)] ++ checkBuffer r0 (reqTA r0) := by
      rintro s rfl rfl; rfl
    cases h : firstFailed (checkTA r0 ++ [(decide (r0.fftN > maxFft), .fftGtMax)] ++ checkBuffer r0 (reqTA r0)) with
    | some e =>
      refine ⟨_, _, Effect.raised r0 e ?_, ?_⟩
      · refine checks_cause _ ?_ h
        simp [checkTA, checkNsc, checkBuffer, Cause.ofCommand, Cause.code]
      · intro s hs hm hl
        simp only [runCommand, execTagen, execTagenWith, hcheck s hs hm, h]
        subst hs hl; rfl
    | none =>
      have hd := (checkTagen_ok { State.reset with regs := r0, maxFft := maxFft }).1
        ((congrArg firstFailed (hcheck _ rfl rfl)).trans h)
      obtain ⟨hv, hres⟩ := hd
      obtain ⟨bins, hb, hmem⟩ := binTable_of_valid r0.fftN r0.nsc hv.2.2.2.2.1 hv.2.2.2.1 hv.2.2.2.2.2
      have hcell := writesTA_cells (q := quantize qs) hv hres hmem
      refine ⟨_, writesTA (quantize qs) r0.fftN r0.cp r0.nsc r0.d bins, Effect.table r0 _ ?_, ?_⟩
      · intro w hw
        have h1 := writesTA_range (q := quantize qs) (s := { State.reset with regs := r0, maxFft := maxFft }) hv hmem hw
        have h2 := hres.2.1
        simp only [reqTA] at h1 h2
        refine ⟨h1.1, by omega, hcell w hw, ?_⟩
        obtain ⟨t, k, b, -, -, rfl | rfl⟩ := (mem_writesTA ..).1 hw
        · have := (quantize_range qs (tableIndex r0.fftN b t) r0.fftN hv.1).1
          exact enc16_ne_poison _ this.1 this.2
        · have := (quantize_range qs (tableIndex r0.fftN b t) r0.fftN hv.1).2
          exact enc16_ne_poison _ this.1 this.2
      · intro s hs hm hl
        simp only [runCommand, execTagen, execTagenWith, hcheck s hs hm, h]
        subst hs hl
        simp only [hb]
        exact State.writeTable_eq _ s hcell
  | fogen =>
    cases h : firstFailed (checkFogen r0) with
    | some e =>
      refine ⟨_, _, Effect.raised r0 e (checks_cause _ (checkFogen_cause _) h), ?_⟩
      rintro s rfl - rfl
      simp only [runCommand, execFogen, execFogenWith, h]; rfl
    | none =>
      obtain ⟨hv, hres⟩ := (checkFogen_ok r0).1 h
      have hcell := writesFO_cells (q := quantize qs) hres
      refine ⟨_, writesFO (quantize qs) r0.fftN r0.d, Effect.table r0 _ ?_, ?_⟩
      · intro w hw
        have h1 := writesFO_range hw
        have h2 := hres.1
        refine ⟨h1.1, by omega, hcell w hw, ?_⟩
        obtain ⟨n, l, -, -, rfl | rfl⟩ := (mem_writesFO ..).1 hw
        · have := (quantize_range qs n r0.fftN hv.1).1
          exact enc16_ne_poison _ this.1 this.2
        · have := (quantize_range qs n r0.fftN hv.1).2
          exact enc16_ne_poison _ this.1 this.2
      · rintro s rfl - rfl
        simp only [runCommand, execFogen, execFogenWith, h]
        exact State.writeTable_eq _ s hcell

/-! Instructions -/

/-- A command instruction is its command. -/
theorem exec_toInstr (c : Command) (s : State) : exec c.toInstr s = runCommand c s := by cases c <;> rfl

/-- Everything the issue of a command word can do (R11, R63). -/
theorem issueCommand_cases (w : Word) (s : State) :
    (∃ c, decodeCommand w = .ok c ∧ issueCommand w s = runCommand c s) ∨
    issueCommand w s = .next (s.raise .badRsv) ∨ issueCommand w s = .next (s.raise .badOpcode) := by
  unfold issueCommand
  cases h : decodeCommand w with
  | ok c => exact .inl ⟨c, rfl, rfl⟩
  | error e =>
    have : e = .badRsv ∨ e = .badOpcode := by
      unfold decodeCommand at h
      split at h
      · exact .inl (Except.error.inj h).symm
      · split at h
        · simp at h
        · exact .inr (Except.error.inj h).symm
    rcases this with rfl | rfl
    · exact .inr (.inl rfl)
    · exact .inr (.inr rfl)

/-- Everything an instruction can do: run a command, end an illegal command word, write a register, read a register,
or refuse an unaligned access. -/
theorem exec_cases (i : Instr) (s : State) :
    (∃ c, exec i s = runCommand c s) ∨
    (exec i s = .next (s.raise .badRsv) ∨ exec i s = .next (s.raise .badOpcode)) ∨
    (∃ off data, i = .wr off data ∧ off ≠ 0 ∧ Offset.aligned off = true ∧
      exec i s = .next { s with regs := s.regs.write (regNumber off) data }) ∨
    (∃ off, i = .rd off ∧ Offset.aligned off = true ∧
      exec i s = .next { s with reads := s.reads ++ [s.regs.read (regNumber off)] }) ∨
    (i.wf = false ∧ exec i s = .refused .unalignedAccess) := by
  cases i with
  | nop => exact .inl ⟨.nop, rfl⟩
  | pq => exact .inl ⟨.pq, rfl⟩
  | scbin => exact .inl ⟨.scbin, rfl⟩
  | talkup => exact .inl ⟨.talkup, rfl⟩
  | tagen => exact .inl ⟨.tagen, rfl⟩
  | fogen => exact .inl ⟨.fogen, rfl⟩
  | wr off data =>
    cases ha : Offset.aligned off with
    | false => exact .inr (.inr (.inr (.inr ⟨ha, by simp [exec, execWr, ha]⟩)))
    | true =>
      by_cases h0 : off = 0
      · have he : exec (.wr off data) s = issueCommand data s := by
          subst h0; rfl
        rw [he]
        rcases issueCommand_cases data s with ⟨c, -, h⟩ | h | h
        · exact .inl ⟨c, h⟩
        · exact .inr (.inl (.inl h))
        · exact .inr (.inl (.inr h))
      · exact .inr (.inr (.inl ⟨off, data, rfl, h0, ha, by rw [exec, execWr, ha, if_neg (by simp), if_neg h0]⟩))
  | rd off =>
    cases ha : Offset.aligned off with
    | false => exact .inr (.inr (.inr (.inr ⟨ha, by simp [exec, execRd, ha]⟩)))
    | true => exact .inr (.inr (.inr (.inl ⟨off, rfl, ha, by simp [exec, execRd, ha]⟩)))

/-! Steps -/

/-- Everything a step can do: stay idle, refuse an absent instance, or act on the instance addressed. -/
theorem step_cases (s : State) :
    (s.bus = [] ∧ step s = .next s) ∨
    ∃ h rest, s.bus = h :: rest ∧
      ((State.select h.target { s with bus := rest } = none ∧ step s = .refused .noSuchInstance) ∨
       ∃ t, State.select h.target { s with bus := rest } = some t ∧
         ((h.act = .reset ∧ step s = .next t.resetBlock) ∨
          (∃ w i, h.act = .send w ∧ decode w = .ok i ∧ step s = exec i t) ∨
          (∃ w e, h.act = .send w ∧ decode w = .error e ∧ step s = answerUndecoded e t))) := by
  rcases hb : s.bus with _ | ⟨h, rest⟩
  · exact .inl ⟨rfl, by simp [step, fetch, hb]⟩
  · refine .inr ⟨h, rest, rfl, ?_⟩
    cases hs : State.select h.target { s with bus := rest } with
    | none => exact .inl ⟨rfl, by simp [step, fetch, hb, hs]⟩
    | some t =>
      refine .inr ⟨t, rfl, ?_⟩
      cases ha : h.act with
      | reset => exact .inl ⟨rfl, by simp [step, fetch, hb, hs, actOn, ha]⟩
      | send w =>
        cases hd : decode w with
        | ok i => exact .inr (.inl ⟨w, i, rfl, hd, by simp [step, fetch, hb, hs, actOn, ha, hd]⟩)
        | error e => exact .inr (.inr ⟨w, e, rfl, hd, by simp [step, fetch, hb, hs, actOn, ha, hd]⟩)

end Sys2Proof.Machine
end

