-- ==== Sys2Proof/Laws/PerInstr.lean ====
section
/-!
SUPPORT. A statement about every instruction as syntax, one lemma per constructor: what decodes is well formed.
-/

namespace Sys2Proof.Laws.DecodedWf

/-- A word on the interface that decodes to the instruction shows that it is well formed: its offset is aligned. -/
def Statement (i : Instr) : Prop := ∀ w : BusWord, decode w = .ok i → i.wf = true

theorem nop : Statement .nop := fun _ _ => rfl

theorem pq : Statement .pq := fun _ _ => rfl

theorem scbin : Statement .scbin := fun _ _ => rfl

theorem talkup : Statement .talkup := fun _ _ => rfl

theorem tagen : Statement .tagen := fun _ _ => rfl

theorem fogen : Statement .fogen := fun _ _ => rfl

/-- A transaction is not the decoding of a command word. -/
theorem offset_aligned {w : BusWord} {i : Instr} (h : decode w = .ok i) :
    (∀ off data, i = .wr off data → Offset.aligned off = true) ∧ (∀ off, i = .rd off → Offset.aligned off = true) := by
  cases w with
  | cmd32 w =>
    simp only [decode] at h
    split at h <;> cases h
    rename_i c _
    cases c <;> exact ⟨nofun, nofun⟩
  | bus41 r =>
    rcases decodeRecord_cases r with ⟨-, h'⟩ | ⟨ha, ⟨-, h'⟩ | ⟨-, -, h'⟩ | ⟨-, -, h'⟩⟩ <;>
      rw [decode, h'] at h <;> cases h
    · exact ⟨fun _ _ e => by cases e; exact ha, nofun⟩
    · exact ⟨nofun, fun _ e => by cases e; exact ha⟩

theorem wr (off : Offset) (data : Word) : Statement (.wr off data) := fun _ h => (offset_aligned h).1 _ _ rfl

theorem rd (off : Offset) : Statement (.rd off) := fun _ h => (offset_aligned h).2 _ rfl

end Sys2Proof.Laws.DecodedWf
end

