-- ==== Sys2Proof/Laws/RealRounding.lean ====
section
/-!
SUPPORT. The laws of the rounding function `Q15R` of the spec.
-/

namespace Sys2Proof.Machine

/-- On values that are not negative `Q15R` is the rounding the evaluator uses. -/
theorem q15R_nonneg {x : ℝ} (h : 0 ≤ x) : q15R x = roundReal x := by
  rcases h.eq_or_lt with rfl | h
  · simp [q15R, sgn, roundReal_zero]
  · simp [q15R, sgn, h, roundReal, abs_of_pos h]

/-- `Q15R` is odd (R7). -/
@[simp] theorem q15R_neg (x : ℝ) : q15R (-x) = -q15R x := by
  simp only [q15R, sgn, abs_neg]
  rcases lt_trichotomy x 0 with h | h | h
  · simp [h, not_lt.2 h.le]
  · simp [h]
  · simp [h, not_lt.2 h.le]

@[simp] theorem q15R_zero : q15R 0 = 0 := by rw [q15R_nonneg le_rfl, roundReal_zero]

@[simp] theorem q15R_one : q15R 1 = 32767 := by rw [q15R_nonneg zero_le_one, roundReal_one]

/-- The rounding errs by half a unit at most (P-near of R84). -/
theorem q15R_near (x : ℝ) : |(q15R x : ℝ) - 32767 * x| ≤ 1 / 2 := by
  have key : ∀ y : ℝ, 0 ≤ y → |(q15R y : ℝ) - 32767 * y| ≤ 1 / 2 := by
    intro y hy
    have h1 := Int.floor_le (32767 * y + 1 / 2)
    have h2 := Int.lt_floor_add_one (32767 * y + 1 / 2)
    rw [q15R_nonneg hy, abs_le, roundReal]
    rw [mul_comm y]
    constructor <;> linarith
  rcases le_total 0 x with h | h
  · exact key x h
  · have := key (-x) (by linarith)
    rw [q15R_neg, ← abs_neg] at this
    rwa [show ((q15R x : ℝ) - 32767 * x) = -(((-q15R x : ℤ) : ℝ) - 32767 * -x) by push_cast; ring]

end Sys2Proof.Machine
end

