-- ==== Sys2Proof/Tests/Slice0.lean ====
section
/-!
SUPPORT. The model's own tests: expected values from the spec's encodings and vectors (spec/30_encoding.md,
95_test_vectors.md), and for every statement with hypotheses a witness that meets them.
-/

namespace Sys2Proof.Tests

open Sys2Proof Sys2Proof.Machine

/-! ## Helpers -/

/-- What is seen of the next state; none where the machine stops. -/
def seen {α : Type} (f : State → α) : Answer → Option α
  | .next t => some (f t)
  | .fault _ => none
  | .refused _ => none

theorem next_of_seen {α : Type} {f : State → α} {o : Answer} {a : α} (h : seen f o = some a) :
    ∃ t, o = .next t ∧ f t = a := by
  cases o <;> simp_all [seen]

/-- Registers with a request, operands and a buffer. -/
def request (N CP NSC A0 A1 D C : Word) : Regs :=
  { Regs.reset with fftSize := N, cpLen := CP, numSc := NSC, arg0 := A0, arg1 := A1, dst := D, cap := C }

/-- The state after reset but for the registers. -/
def machine (r : Regs) : State := { State.reset with regs := r }

/-- The base registers of the error vectors (95_test_vectors.md section 7). -/
def base : Regs := request 8 2 4 0 0 0 20

/-- The source's timing-table scenario (95_test_vectors.md section 1.1). -/
def scenario : State := machine (request 4 1 2 1 0 0 6)

/-- A frequency-table request with 64 pairs at cell 0x100 (95_test_vectors.md section 9, P2). -/
def ramp : State := machine (request 4 0 0 0 0 0x100 64)

/-- Two instances with buffers that share no cell, the second addressed. -/
def twins : State :=
  { machine (request 2 0 2 0 0 4 32) with before := [request 2 0 2 0 0 0 2] }

/-- Samples for the eighths of a turn that are not those of `PhaseQ` (23170), but have the properties of R84. -/
def otherEighths : List QuantEntry :=
  [⟨1, 8, ⟨23169, 23169⟩⟩, ⟨3, 8, ⟨-23169, 23169⟩⟩, ⟨5, 8, ⟨-23169, -23169⟩⟩, ⟨7, 8, ⟨23169, -23169⟩⟩]

/-- A platform with that quantizer, two instances and another `TM_INIT`: cell 3 holds 0x7FFF, every other cell 0. -/
def other : Params := { Params.suggested with quant := otherEighths, nInst := 2, tmInit := ⟨0, [(3, 0x7FFF)]⟩ }

/-- A state with host actions pending. -/
def State.withBus (b : List HostStep) (s : State) : State := { s with bus := b }

/-! ## Well-formedness -/

theorem test_wf_write : (Instr.wr 0xFC 1).wf = true ∧ (Instr.wr 0x05 1).wf = false := by decide

theorem test_wf_read : (Instr.rd 0x2C).wf = true ∧ (Instr.rd 0x2E).wf = false := by decide

theorem test_wf_commands :
    [Instr.nop, .pq, .scbin, .talkup, .tagen, .fogen].all Instr.wf = true := by decide

/-! ## Decoding (30_encoding.md R61, R63, R65; error vectors E34 to E39) -/

theorem test_decode_nop : decode (.cmd32 0b00000000000000000000000000000000) = .ok .nop := by decide
theorem test_decode_pq : decode (.cmd32 0b00000000000000000000000000000001) = .ok .pq := by decide
theorem test_decode_scbin : decode (.cmd32 0b00000000000000000000000000000010) = .ok .scbin := by decide
theorem test_decode_talkup : decode (.cmd32 0b00000000000000000000000000000011) = .ok .talkup := by decide
theorem test_decode_tagen : decode (.cmd32 0b00000000000000000000000000010000) = .ok .tagen := by decide
theorem test_decode_fogen : decode (.cmd32 0b00000000000000000000000000010001) = .ok .fogen := by decide

/-- WE 1, OFF 0x08, DATA 4 (R65's example). -/
theorem test_decode_wr : decode (.bus41 0b10000100000000000000000000000000000000100) = .ok (.wr 0x08 4) := by decide

/-- WE 0, OFF 0x2C, DATA 0. -/
theorem test_decode_rd : decode (.bus41 0b00010110000000000000000000000000000000000) = .ok (.rd 0x2C) := by decide

theorem test_decode_illegal :
    decode (.cmd32 0x00000004) = .error .badOpcode ∧ decode (.cmd32 0x00000012) = .error .badOpcode ∧
    decode (.cmd32 0x000000FF) = .error .badOpcode ∧ decode (.cmd32 0x00000110) = .error .badRsv ∧
    decode (.cmd32 0x80000000) = .error .badRsv ∧ decode (.cmd32 0x000001FF) = .error .badRsv ∧
    decode (.bus41 0x10900000001) = .error .unalignedOffset ∧
    decode (.bus41 0x00400000001) = .error .readWithData := by decide

theorem test_encode :
    encode .fogen = .cmd32 0x00000011 ∧ encode (.wr 0x0C 0xFFFFFFFF) = .bus41 0x10CFFFFFFFF ∧
    encode (.rd 0x04) = .bus41 0x00400000000 := by decide

theorem test_table_words :
    decodeTableWord 32 0x11 = some .fogen ∧ decodeTableWord 48 0x10000000010 = some (.wr 0x00 0x10) ∧
    decodeTableWord 48 0x00800000000 = some (.rd 0x08) ∧ decodeTableWord 32 0x12 = none := by decide

/-! ## Instructions -/

/-- 95_test_vectors.md section 3.4, rows 1 and 9. -/
theorem test_pq :
    seen (fun t => (t.regs.status, t.regs.resCos, t.regs.resSin, t.regs.resIdx))
      (exec .pq (machine (request 8 0 0 3 0 0 0))) = some (0, 0xFFFFA57E, 0x00005A82, 3) ∧
    seen (fun t => (t.regs.status, t.regs.resCos, t.regs.resSin, t.regs.resIdx))
      (exec .pq (machine (request 3 0 0 1 0 0 0))) = some (0, 0xFFFFC000, 0x00006ED9, 1) := by decide +kernel

/-- Section 3.2: entries beside a rounding boundary, and far out. -/
theorem test_phase :
    phaseQ 254 2048 = ⟨23311, 23027⟩ ∧ phaseQ 303 4096 = ⟨29291, 14688⟩ ∧ phaseQ 640 1536 = ⟨-28377, 16384⟩ ∧
    phaseQ 5217 (2 ^ 30) = ⟨32767, 1⟩ ∧ phaseQ (-(2 ^ 31)) (2 ^ 31 - 1) = ⟨32767, 0⟩ := by decide +kernel

/-- Section 4, rows (8, 4, 1) and (8, 4, 4). -/
theorem test_scbin :
    seen (fun t => (t.regs.status, t.regs.resIdx)) (exec .scbin (machine (request 8 0 4 1 0 0 0))) = some (0, 7) ∧
    seen (fun t => (t.regs.status, t.regs.resIdx)) (exec .scbin (machine (request 8 0 4 4 0 0 0)))
      = some (0x801, 0) := by decide

/-- Section 5.5, rows 5 and 7: a negative product, and one that needs 64 bits. -/
theorem test_talkup :
    seen (fun t => (t.regs.status, t.regs.resIdx, t.regs.resCos, t.regs.resSin))
      (exec .talkup (machine (request 8 2 4 0xFFFFFFFE 3 0 0))) = some (0, 6, 0, 0xFFFF8001) ∧
    seen (fun t => (t.regs.status, t.regs.resIdx, t.regs.resCos, t.regs.resSin))
      (exec .talkup (machine (request 0x40000000 0x7FFFFFFF 2 0x80000001 0 0 0)))
      = some (0, 1073741823, 0x00007FFF, 0) := by decide +kernel

/-- Section 1.1: the source's timing table. -/
theorem test_tagen : seen (fun t => (t.regs.status, t.tm.map (·.2))) (exec .tagen scenario) =
    some (0, [0x0000, 0x7FFF, 0x7FFF, 0x0000, 0x7FFF, 0x0000, 0x7FFF, 0x0000, 0x0000, 0x8001, 0x7FFF, 0x0000]) := by
  decide +kernel

/-- Vectors E31 and E32: a buffer that ends one cell too far, and one that ends with the last cell. -/
theorem test_tagen_end :
    seen (fun t => (t.regs.status, t.tm)) (exec .tagen (machine (request 8 2 4 0 0 0xFFFFFFD9 20)))
      = some (0x1202, []) ∧
    seen (fun t => (t.regs.status, t.tm.map (·.1))) (exec .tagen (machine (request 8 2 4 0 0 0xFFFFFFD8 20)))
      = some (0, (List.range 40).map (0xFFFFFFD8 + ·)) := by decide +kernel

/-- Section 6, `N = 2`, both samples in the first and the last lane. -/
theorem test_fogen :
    seen (fun t => (t.regs.status, t.tm.length, [0, 1, 30, 31, 32, 33, 62, 63].map fun a => TableMemory.read t.tmInit a t.tm))
      (exec .fogen (machine (request 2 0xFFFFFFFF 3 0 0 0 32))) =
    some (0, 64, [0x7FFF, 0, 0x7FFF, 0, 0x8001, 0, 0x8001, 0]) := by
  decide +kernel

/-- Vectors E11 and E12. -/
theorem test_fogen_rejects :
    seen (fun t => t.regs.status) (exec .fogen (machine (request 32768 0 0 0 0 0 0xFFFFFFFF))) = some 0x301 ∧
    seen (fun t => t.regs.status) (exec .fogen (machine (request 32767 0 0 0 0 0 524271))) = some 0x1102 := by decide

/-- R130's example. -/
theorem test_nop : seen (fun t => t.regs.status)
    (exec .nop (machine { Regs.reset with status := 0x601 })) = some 0 := by decide

/-- 95_test_vectors.md section 8, steps 3 and 5, and vector E37. -/
theorem test_wr :
    exec (.wr 0x04 0xFFFFFFFF) (machine base) = .next (machine base) ∧
    exec (.wr 0x30 1) (machine base) = .next (machine base) ∧
    seen (fun t => t.regs.status) (exec (.wr 0x00 0x00000110) (machine base)) = some 0x3104 := ⟨rfl, rfl, rfl⟩

/-- Section 8, steps 2, 6 and 7. -/
theorem test_rd :
    seen (fun t => t.reads) (exec (.rd 0x08) (machine (request 0xFFFFFFF8 0 0 0 0 0 0))) = some [0xFFFFFFF8] ∧
    seen (fun t => t.reads) (exec (.rd 0xFC) (machine base)) = some [0] ∧
    seen (fun t => t.reads) (exec (.rd 0x00) (machine base)) = some [0] := by decide

/-- Error vectors of TAGEN: E8, E13, E14, E16, E17, E18, E29, E30, E33, E42. -/
theorem test_tagen_rejects :
    let status (r : Regs) (m : Nat) := seen (fun t => t.regs.status) (exec .tagen { machine r with maxFft := m })
    status { base with fftSize := 6 } (2 ^ 30) = some 0x201 ∧
    status { base with cpLen := 0xFFFFFFFF } (2 ^ 30) = some 0x401 ∧
    status { base with numSc := 0 } (2 ^ 30) = some 0x501 ∧
    status { base with numSc := 3 } (2 ^ 30) = some 0x601 ∧
    status { base with numSc := 9 } (2 ^ 30) = some 0x601 ∧
    status { base with numSc := 10 } (2 ^ 30) = some 0x701 ∧
    status { base with cap := 0 } 4 = some 0x1002 ∧
    status { base with cap := 19 } (2 ^ 30) = some 0x1102 ∧
    status { base with numSc := 3, cap := 0 } (2 ^ 30) = some 0x601 ∧
    status (request 2 0x7FFFFFFF 2 0 0 0 0xFFFFFFFF) (2 ^ 30) = some 0x1102 := by decide +kernel

/-! ## Steps -/

/-- The first step after reset with a command placed runs it: E1. -/
theorem test_step : seen (fun t => (t.regs.status, t.bus)) (step (State.reset.withFetchWord 32 0x10))
    = some (0x101, []) := by decide

/-- R170, R171: a reset action clears its instance, and no cell. -/
theorem test_reset : seen (fun t => (t.regs, t.tm)) (step
    { machine base with tm := [(3, 0x7FFF)], bus := [⟨0, .reset⟩] }) = some (Regs.reset, [(3, 0x7FFF)]) := by decide

/-- R31: the action reaches its instance and no other. -/
theorem test_instances : seen (fun t => (t.instances.map (·.arg1), t.selected)) (step
    (State.withBus [⟨0, .send (.bus41 0x11800000007)⟩] twins)) = some ([7, 0], 0) := by decide

/-! ## Table memory -/

/-- R6, R46: a cell holds what `TM_INIT` gives it until a command writes it. -/
theorem test_memory :
    TableMemory.read ⟨0x8000, []⟩ 6 [(2, 1), (7, 2)] = 0x8000 ∧ TableMemory.read ⟨0, [(6, 9)]⟩ 6 [(2, 1)] = 9 ∧
    TableMemory.write ⟨0x8000, []⟩ 5 0x7FFF [(2, 1), (7, 2)] = [(2, 1), (5, 0x7FFF), (7, 2)] ∧
    TableMemory.write ⟨0x8000, []⟩ 2 3 [(2, 1), (7, 2)] = [(2, 3), (7, 2)] := by decide

/-- A cell that gets back the value `TM_INIT` gave it is listed no more. -/
theorem test_memory_form : TableMemory.write ⟨0, [(7, 5)]⟩ 7 5 [(2, 1), (7, 2)] = [(2, 1)] ∧
    TableMemory.write ⟨0, []⟩ 9 0 [(2, 1), (7, 2)] = [(2, 1), (7, 2)] := by decide

/-- R47: base 0x100, cell 1 holds 0x8001. -/
theorem test_bytes : TableMemory.byteAt ⟨0, []⟩ 0x100 0x102 [(1, 0x8001)] = some 0x01 ∧
    TableMemory.byteAt ⟨0, []⟩ 0x100 0x103 [(1, 0x8001)] = some 0x80 ∧
    TableMemory.byteAt ⟨0x1234, []⟩ 0x100 0x100 [(1, 0x8001)] = some 0x34 ∧
    TableMemory.byteAt ⟨0, []⟩ 0x100 0xFF [(1, 0x8001)] = none ∧
    TableMemory.byteAt ⟨0, []⟩ 0x100 0x2000000FF [] = some 0 ∧
    TableMemory.byteAt ⟨0, []⟩ 0x100 0x200000100 [] = none := by decide

/-! ## The open parameters (00_scope.md R6) -/

/-- PQ runs the platform's quantizer, whole turns dropped; an entry that R84 does not admit is none. -/
theorem test_quantizer :
    seen (fun t => (t.regs.resCos.toInt, t.regs.resSin.toInt, t.regs.resIdx))
      (exec .pq { State.powerOn other with regs := request 8 0 0 11 0 0 0 }) = some (-23169, 23169, 3) ∧
    quantize [⟨1, 4, ⟨1, 32767⟩⟩, ⟨1, 8, ⟨23170, -32768⟩⟩] 1 4 = ⟨0, 32767⟩ ∧
    quantize [⟨1, 4, ⟨1, 32767⟩⟩, ⟨1, 8, ⟨23170, -32768⟩⟩] 1 8 = ⟨23170, 23170⟩ := by decide +kernel

/-- FOGEN with `N = 1` over a `TM_INIT` that has zeros already: the cosines change, and cell 3 loses its 0x7FFF. -/
theorem test_tmInit :
    seen (fun t => (t.tm.length, [0, 1, 2, 3, 31, 32].map fun a => TableMemory.read t.tmInit a t.tm))
      (exec .fogen { State.powerOn other with regs := request 1 0 0 0 0 0 16 }) =
    some (17, [0x7FFF, 0, 0x7FFF, 0, 0, 0]) := by decide +kernel

theorem test_wrap : wrap (-3) 4 = 1 ∧ wrap (-4) 4 = 0 ∧ wrap (-9) 8 = 7 ∧
    wrap (-2305843005992468481) (2 ^ 30) = 1073741823 ∧ wrap (-2147483648) 2147483647 = 2147483646 := by decide

/-! ## The assembler (30_encoding.md R66, R67) -/

theorem test_asm_write : parseLine "WR CPLEN, -1  ; comment".toList = some ⟨[0x10CFFFFFFFF], none⟩ := by decide

theorem test_asm_read : parseLine "RD STATUS => 0x00000601".toList = some ⟨[0x00400000000], some 0x601⟩ := by decide

theorem test_asm_pseudo : parseLine "TALKUP -1, 0".toList =
    some ⟨[0x114FFFFFFFF, 0x11800000000, 0x10000000003], none⟩ := by decide

theorem test_asm_reserved : parseLine "WR @0x30, 1".toList = some ⟨[0x13000000001], none⟩ := by decide +kernel

/-! ## Witnesses: states and operands that meet the hypotheses of the statements -/

theorem witness_DecodeOfEncode : (Instr.wr 0xFC 0xFFFFFFFF).wf = true ∧ (Instr.rd 0x00).wf = true := by decide

theorem witness_EncodeOfDecode :
    decode (.cmd32 0x00000011) = .ok .fogen ∧ decode (.bus41 0x1FCFFFFFFFF) = .ok (.wr 0xFC 0xFFFFFFFF) := by decide

theorem witness_IllegalCommandWords :
    256 ≤ (0x00000100 : Word).toNat ∧ 256 ≤ (0xFFFFFFFF : Word).toNat ∧
    (∀ n ∈ [0x04, 0x0F, 0x12, 0xFF], n < 256 ∧ n ∉ [0x00, 0x01, 0x02, 0x03, 0x10, 0x11]) := by decide

theorem witness_NoTransactionIsRefused :
    (0x01 : Offset).toNat % 4 ≠ 0 ∧ (0xFF : Offset).toNat % 4 ≠ 0 ∧
    (State.withBus [⟨0, .send (.bus41 0x0FD00000000)⟩] State.reset).bus
      = [⟨State.reset.selected, .send (.bus41 0x0FD00000000)⟩] ∧
    (recordOff 0x0FD00000000).toNat % 4 ≠ 0 ∧ (recordOff 0x00400000001).toNat % 4 = 0 ∧
    recordWe 0x00400000001 = false ∧ recordData 0x00400000001 ≠ 0 := by decide

theorem witness_StepRunsDecodedInstruction :
    let s := State.withBus [⟨1, .send (.cmd32 0x10)⟩, ⟨0, .reset⟩] twins
    s.bus = [⟨1, .send (.cmd32 0x10)⟩, ⟨0, .reset⟩] ∧
    State.select 1 { s with bus := [⟨0, .reset⟩] } = some { s with bus := [⟨0, .reset⟩] } ∧
    decode (.cmd32 0x10) = .ok .tagen := by decide

theorem witness_PlacedWordRuns : decodeTableWord 32 0x10 = some .tagen ∧
    decodeTableWord 48 0x00400000000 = some (.rd 0x04) := by decide

theorem witness_CommandWordIsCmdWrite :
    let s := State.withBus [⟨0, .send (.cmd32 0x00000110)⟩] scenario
    s.bus = [⟨0, .send (.cmd32 0x00000110)⟩] ∧ State.select 0 { s with bus := [] } = some scenario := by decide

theorem witness_IdleStepKeepsEverything : State.reset.bus = [] := rfl

theorem witness_ActionReachesItsInstance :
    (∃ r, twins.instances[0]? = some r) ∧ (∃ r, twins.instances[1]? = some r) ∧ twins.instances.length ≤ 2 ∧
    (State.withBus [⟨2, .reset⟩] twins).bus = [⟨2, .reset⟩] ∧ decode (.cmd32 0x10) = .ok .tagen ∧
    decode (.cmd32 0x12) = .error .badOpcode := ⟨⟨_, rfl⟩, ⟨_, rfl⟩, by decide, rfl, rfl, rfl⟩

theorem witness_OtherInstancesUntouched :
    ∃ t, step (State.withBus [⟨0, .send (.cmd32 0x10)⟩] twins) = .next t ∧ t.regs.status = 0 := by
  exact next_of_seen (f := fun t => t.regs.status) (by decide +kernel)

theorem witness_ResetClearsRegistersKeepsMemory :
    State.select 1 { State.withBus [⟨1, .reset⟩] twins with bus := [] } = some twins := by decide

theorem witness_RegistersAreZeroAfterReset : Command.tagen ≠ .nop := by decide

theorem inv_machine {r : Regs} (h : r.status = 0 ∧ r.resCos = 0 ∧ r.resSin = 0 ∧ r.resIdx = 0) : (machine r).Inv where
  regs := by
    intro x hx
    have : x = r := by simpa [machine, State.instances, State.reset, State.powerOn, Params.suggested] using hx
    subst this
    obtain ⟨h1, h2, h3, h4⟩ := h
    exact ⟨⟨.none, by decide, h1⟩, by rw [h2]; decide, by rw [h3]; decide, by rw [h4]; decide⟩
  tm := by show TableMemory.wf ⟨0x8000, []⟩ []; decide
  cells := by simp [machine, State.reset, State.powerOn]
  maxFft := ⟨30, le_rfl, rfl⟩

theorem witness_StepKeepsInvariant : ∃ s t : State, s.Inv ∧ step s = .next t ∧ t.tm.length = 12 := by
  have h := inv_machine (r := scenario.regs) ⟨rfl, rfl, rfl, rfl⟩
  obtain ⟨t, ht, hl⟩ : ∃ t, step (scenario.withFetchWord 32 0x10) = .next t ∧ t.tm.length = 12 :=
    next_of_seen (f := fun t => t.tm.length) (by decide +kernel)
  exact ⟨scenario.withFetchWord 32 0x10, t, ⟨h.regs, h.tm, h.cells, h.maxFft⟩, ht, hl⟩

/-- Legal parameters, at the least and the greatest MAX_FFT. -/
theorem witness_PowerOnTakesTheParameters :
    Params.suggested.Legal ∧ { other with maxFft := 1 }.Legal := ⟨⟨⟨30, by decide, rfl⟩, by decide⟩, ⟨0, by decide, rfl⟩, by decide⟩

theorem witness_TmInitMayBeAnything : (0 : Nat) < 2 ^ 32 ∧ 2 ^ 32 - 1 < 2 ^ 32 := by decide

theorem witness_WrapIsFloorModulo : (0 : Int) < 1 ∧ (0 : Int) ≤ 3 ∧ (3 : Int) < 4 ∧ (4 : Int) ∣ -1 - 3 := by decide

theorem witness_QuantizerIsExactPhase : (0 : Int) < 1 ∧ (0 : Int) < 2147483647 := by decide

theorem witness_QuantizerHasItsProperties :
    (0 : Int) < 4 ∧ 4 * wrap 5 4 = 4 ∧ 4 * wrap 2 4 = 2 * 4 ∧ 4 * wrap (-1) 4 = 3 * 4 ∧ (4 : Int) % 2 = 0 ∧
    (4 : Int) % 4 = 0 := by decide

/-- A list of samples that lie near, and one whose sample is taken: 23169 for 23169.77. -/
theorem witness_EveryListedQuantizerIsAdmissible :
    (∀ x ∈ [QuantEntry.mk 1 8 ⟨23169, 23169⟩], 0 < x.den →
      |(x.sample.cos : ℝ) - 32767 * Real.cos (angle x.num x.den)| ≤ 1 / 2 + 1 / 2 ∧
      |(x.sample.sin : ℝ) - 32767 * Real.sin (angle x.num x.den)| ≤ 1 / 2 + 1 / 2) ∧
    quantize [⟨1, 8, ⟨23169, 23169⟩⟩] 1 8 = ⟨23169, 23169⟩ := by
  refine ⟨fun x hx _ => ?_, by decide +kernel⟩
  have hx : x = ⟨1, 8, ⟨23169, 23169⟩⟩ := by simpa using hx
  subst hx
  have ha : angle 1 8 = Real.pi / 4 := by rw [angle]; push_cast; ring
  have h1 : (1.4142 : ℝ) ≤ √2 := Real.le_sqrt_of_sq_le (by norm_num)
  have h2 : √2 ≤ (1.41422 : ℝ) := Real.sqrt_le_iff.2 (by norm_num)
  simp only [ha, Real.cos_pi_div_four, Real.sin_pi_div_four, abs_le]
  norm_num
  constructor <;> linarith

/-- An admissible quantizer: a quarter turn at a time, right to within `e = 65534`. -/
def coarse : Quantizer := fun n N => quarterTurns (4 * wrap n N / N).toNat ⟨32767, 0⟩

theorem witness_EveryAdmissibleQuantizerIsTaken : Quantizer.Admissible 65534 coarse := by
  have hr : ∀ n N, -32767 ≤ (coarse n N).cos ∧ (coarse n N).cos ≤ 32767 ∧ -32767 ≤ (coarse n N).sin ∧
      (coarse n N).sin ≤ 32767 := by
    intro n N
    unfold coarse quarterTurns
    split <;> decide
  have hj : ∀ n N j, 0 < N → 4 * wrap n N = j * N → coarse n N = quarterTurns j.toNat ⟨32767, 0⟩ := by
    intro n N j hN h
    rw [coarse, h, Int.mul_ediv_cancel _ hN.ne']
  have near : ∀ (i : Int) (x : ℝ), -32767 ≤ i → i ≤ 32767 → |x| ≤ 1 → |(i : ℝ) - 32767 * x| ≤ 1 / 2 + 65534 := by
    intro i x h1 h2 hx
    have h1 : (-32767 : ℝ) ≤ i := by exact_mod_cast h1
    have h2 : (i : ℝ) ≤ 32767 := by exact_mod_cast h2
    rw [abs_le] at *
    constructor <;> linarith
  exact {
    range := fun n N _ => hr n N
    period := fun n N hN => by
      rw [coarse, coarse, wrap_eq_emod n N hN, wrap_eq_emod _ N hN, Int.emod_emod]
    zero := fun N hN => hj 0 N 0 hN (by rw [wrap_eq_emod 0 N hN]; simp)
    quadrant1 := fun n N hN h => hj n N 1 hN (by rw [h, one_mul])
    quadrant2 := fun n N hN h => hj n N 2 hN h
    quadrant3 := fun n N hN h => hj n N 3 hN h
    nearCos := fun n N _ => near _ _ (hr n N).1 (hr n N).2.1 (Real.abs_cos_le_one _)
    nearSin := fun n N _ => near _ _ (hr n N).2.2.1 (hr n N).2.2.2 (Real.abs_sin_le_one _) }

theorem witness_QuantizerTies :
    (6 * wrap 2 12 = 12 ∧ 6 * wrap 10 12 = 5 * 12) ∧ (3 * wrap 4 12 = 12 ∧ 3 * wrap 8 12 = 2 * 12) ∧
    (12 * wrap 1 12 = 12 ∧ 12 * wrap 5 12 = 5 * 12) ∧ (12 * wrap 7 12 = 7 * 12 ∧ 12 * wrap 11 12 = 11 * 12) := by
  decide

theorem witness_PqQuantizesItsAngle :
    (machine (request 0 0 0 0 0 0 0)).regs.fftN ≤ 0 ∧ 0 < (machine (request 1 0 0 0 0 0 0)).regs.fftN := by decide

theorem witness_BinHasItsFormula :
    BinDomain 2 2 0 ∧ BinDomain 2 2 1 ∧ ¬BinDomain 2 2 2 ∧ ¬BinDomain 2 2 (-1) ∧ ¬BinDomain 1 2 0 ∧ ¬BinDomain 4 3 0 := by
  unfold BinDomain; decide

theorem witness_BinIsCentredBijection :
    (2 : Int) % 2 = 0 ∧ (0 : Int) < 2 ∧ (2 : Int) ≤ 2 ∧ (0 : Int) < 2 / 2 ∧ (2 : Int) / 2 ≤ 1 ∧ (1 : Int) < 2 ∧
    bin 2 2 0 = some 1 ∧ bin 2 2 1 = some 0 := by decide

/-- One state for each clause, at the boundary of its range. -/
theorem witness_ScbinRemapsItsIndex :
    let r (N NSC k : Word) : Regs := request N 0 NSC k 0 0 0
    (r 0 2 0).fftN ≤ 0 ∧ (0 < (r 1 0 0).fftN ∧ (r 1 0 0).nsc ≤ 0) ∧ (0 < (r 4 3 0).nsc ∧ (r 4 3 0).nsc % 2 = 1) ∧
    ((r 1 2 0).nsc % 2 = 0 ∧ (r 1 2 0).nsc > (r 1 2 0).fftN) ∧
    ((r 2 2 0xFFFFFFFF).nsc ≤ (r 2 2 0xFFFFFFFF).fftN ∧ (r 2 2 0xFFFFFFFF).a0 < 0) ∧ (r 2 2 2).nsc ≤ (r 2 2 2).a0 ∧
    (0 ≤ (r 2 2 0).a0 ∧ (r 2 2 1).a0 < (r 2 2 1).nsc) := by decide

/-- What holds for the angles of one turn holds for all. -/
theorem eighths {P : Int → Prop} (h : ∀ n, P n ↔ P (n % 8)) (h8 : ∀ k ∈ List.range 8, P (k : Int)) (n : Int) : P n := by
  rw [h]
  have := h8 (n % 8).toNat (List.mem_range.2 (by omega))
  rwa [Int.toNat_of_nonneg (by omega)] at this

/-- The quantizer of the platform `other` has (P-conj) and (P-half) at the denominator 8. -/
theorem other_conj : Quantizer.Conj 8 (State.powerOn other).quantizer := by
  have hq : ∀ n m : Int, n % 8 = m % 8 → quantize otherEighths n 8 = quantize otherEighths m 8 := fun n m h => by
    rw [← quantize_emod _ n 8 (by decide), h, quantize_emod _ m 8 (by decide)]
  refine eighths (fun n => ?_) (by decide +kernel)
  show quantize otherEighths _ 8 = _ ↔ quantize otherEighths _ 8 = _
  rw [hq (-n) (-(n % 8)) (by omega)]
  simp only [State.quantizer, State.powerOn, other]
  rw [hq n (n % 8) (by omega)]

theorem other_half : Quantizer.Half 8 (State.powerOn other).quantizer := by
  have hq : ∀ n m : Int, n % 8 = m % 8 → quantize otherEighths n 8 = quantize otherEighths m 8 := fun n m h => by
    rw [← quantize_emod _ n 8 (by decide), h, quantize_emod _ m 8 (by decide)]
  refine fun _ => eighths (fun n => ?_) (by decide +kernel)
  show quantize otherEighths _ 8 = _ ↔ quantize otherEighths _ 8 = _
  rw [hq (n + 8 / 2) (n % 8 + 8 / 2) (by omega)]
  simp only [State.quantizer, State.powerOn, other]
  rw [hq n (n % 8) (by omega)]

/-- Requests that `ValidTA` turns away, one for each of its conditions. -/
theorem witness_InvalidTimingRequestsRejected :
    ¬ValidTA (request 0 0 2 0 0 0 0) ∧ ¬ValidTA (request 6 0 2 0 0 0 0) ∧ ¬ValidTA (request 4 0xFFFFFFFF 2 0 0 0 0) ∧
    ¬ValidTA (request 4 0 0 0 0 0 0) ∧ ¬ValidTA (request 4 0 3 0 0 0 0) ∧ ¬ValidTA (request 4 0 6 0 0 0 0) := by
  refine ⟨fun h => absurd h.1 (by decide), fun h => ?_, fun h => absurd h.2.2.1 (by decide),
    fun h => absurd h.2.2.2.1 (by decide), fun h => absurd h.2.2.2.2.1 (by decide),
    fun h => absurd h.2.2.2.2.2 (by decide)⟩
  obtain ⟨e, he⟩ := h.2.1
  have h6 : (6 : Int) = 2 ^ e := he
  rcases e with _ | _ | _ | e
  · omega
  · omega
  · omega
  · have : (2 : Int) ^ (e + 3) = 8 * 2 ^ e := by ring
    omega

theorem witness_TableIndexInRange : (0 : Int) < 4 := by decide

/-- The scenario's request is valid. -/
theorem valid_scenario (A0 A1 D C : Word) : ValidTA (request 4 1 2 A0 A1 D C) := by
  have hN : (request 4 1 2 A0 A1 D C).fftN = 4 := show (4 : Word).toInt = 4 by decide
  have hC : (request 4 1 2 A0 A1 D C).cp = 1 := show (1 : Word).toInt = 1 by decide
  have hS : (request 4 1 2 A0 A1 D C).nsc = 2 := show (2 : Word).toInt = 2 by decide
  rw [ValidTA, hN, hC, hS]
  exact ⟨by decide, ⟨2, by decide⟩, by decide, by decide, by decide, by decide⟩

/-- Beside a valid request, one state for each clause, at the boundary of its range. -/
theorem witness_TalkupLooksUpItsEntry :
    let r (t k : Word) : Regs := request 4 1 2 t k 0 0
    ((r 0xFFFFFFFE 0).a0 < -(r 0xFFFFFFFE 0).cp ∧ (r 2 0).cp < (r 2 0).a0) ∧
    (-(r 0xFFFFFFFF 0).cp ≤ (r 0xFFFFFFFF 0).a0 ∧ (r 1 0).a0 ≤ (r 1 0).cp) ∧
    ((r 1 0xFFFFFFFF).a1 < 0 ∧ (r 1 2).nsc ≤ (r 1 2).a1) ∧ (0 ≤ (r 1 0).a1 ∧ (r 1 1).a1 < (r 1 1).nsc) ∧
    (((2 : Nat) : Int) < (r 1 0).fftN ∧ (r 1 0).fftN ≤ ((4 : Nat) : Int)) := by decide

theorem witness_TimingIdentityAtZero :
    ValidTA (request 4 1 2 0 0 0 0) ∧ ValidTA (request 4 1 2 1 1 0 0) ∧
    (request 4 1 2 0 0 0 0).fftN ≤ State.reset.maxFft ∧ (request 4 1 2 0 0 0 0).a0 = 0 ∧
    (request 4 1 2 1 1 0 0).a1 = (request 4 1 2 1 1 0 0).nsc / 2 :=
  ⟨valid_scenario .., valid_scenario .., by decide, by decide, by decide⟩

theorem witness_TimingConjugateSymmetry :
    (machine (request 4 1 2 0xFFFFFFFF 0 0 0)).regs
      = { (machine (request 4 1 2 1 0 0 0)).regs with arg0 := -(machine (request 4 1 2 1 0 0 0)).regs.arg0 } ∧
    (machine (request 4 1 2 1 0 0 0)).quant = [] ∧
    (∃ u, exec .talkup (machine (request 4 1 2 1 0 0 0)) = .next u ∧ u.regs.status = 0) ∧
    (∃ u, exec .talkup (machine (request 4 1 2 0xFFFFFFFF 0 0 0)) = .next u ∧ u.regs.status = 0) :=
  ⟨by decide, rfl, next_of_seen (f := fun t => t.regs.status) (by decide +kernel),
    next_of_seen (f := fun t => t.regs.status) (by decide +kernel)⟩

/-- The same with a quantizer that is not the default. -/
theorem witness_TimingConjugateSymmetry_other :
    let s : State := { State.powerOn other with regs := request 8 1 4 1 1 0 0 }
    s.quant ≠ [] ∧ Quantizer.Conj s.regs.fftN s.quantizer ∧
    (∃ u, exec .talkup s = .next u ∧ (u.regs.status, u.regs.resSin.toInt) = (0, -23169)) ∧
    (∃ u, exec .talkup { s with regs := { s.regs with arg0 := -s.regs.arg0 } } = .next u ∧
      (u.regs.status, u.regs.resSin.toInt) = (0, 23169)) :=
  ⟨by decide, other_conj, next_of_seen (f := fun t => (t.regs.status, t.regs.resSin.toInt)) (by decide +kernel),
    next_of_seen (f := fun t => (t.regs.status, t.regs.resSin.toInt)) (by decide +kernel)⟩

theorem witness_TimingLayoutIsBijective :
    (0 : Int) ≤ 1 ∧ (0 : Int) < 2 ∧ pairTA 1 2 (-1) 0 = 0 ∧ pairTA 1 2 1 1 = 5 ∧ (((5 : Nat) : Int) < (2 * 1 + 1) * 2) := by
  decide

/-- A valid request: without the depth, without the pairs, one cell too far, and with all of it to the last cell. -/
theorem witness_TagenWritesTheTable :
    (∀ D C : Word, ValidTA (request 4 1 2 0 0 D C)) ∧
    ((3 : Nat) : Int) < (request 4 1 2 0 0 0 6).fftN ∧
    ((request 4 1 2 0 0 0 5).capPairs : Int) < (2 * (request 4 1 2 0 0 0 5).cp + 1) * (request 4 1 2 0 0 0 5).nsc ∧
    2 ^ 32 < (request 4 1 2 0 0 0xFFFFFFF5 6).d
      + 2 * ((2 * (request 4 1 2 0 0 0xFFFFFFF5 6).cp + 1) * (request 4 1 2 0 0 0xFFFFFFF5 6).nsc) ∧
    ResourceTA (machine (request 4 1 2 0 0 0xFFFFFFF4 6)) := by
  refine ⟨fun D C => valid_scenario 0 0 D C, by decide, by decide, by decide, ?_⟩
  unfold ResourceTA; decide

/-- A valid request: without the pairs, one cell too far, and with all of it to the last cell. -/
theorem witness_FogenWritesTheTable :
    (request 0 0 0 0 0 0 0).fftN ≤ 0 ∧ 32767 < (request 32768 0 0 0 0 0 0).fftN ∧
    ValidFO (request 1 0 0 0 0 0 0) ∧ ValidFO (request 32767 0 0 0 0 0 0) ∧
    ((request 1 0 0 0 0 0 15).capPairs : Int) < 16 * (request 1 0 0 0 0 0 15).fftN ∧
    2 ^ 32 < (request 1 0 0 0 0 0xFFFFFFE1 16).d + 2 * (16 * (request 1 0 0 0 0 0xFFFFFFE1 16).fftN) ∧
    ResourceFO (request 1 0 0 0 0 0xFFFFFFE0 16) := by
  unfold ValidFO ResourceFO; decide

theorem witness_TablesForAnyQuantizer :
    ValidTA scenario.regs ∧ ResourceTA scenario ∧ ValidFO ramp.regs ∧ ResourceFO ramp.regs := by
  refine ⟨valid_scenario .., ?_, ?_, ?_⟩
  · unfold ResourceTA; decide
  · unfold ValidFO; decide
  · unfold ResourceFO; decide

theorem witness_FogenLanesAndPeriod :
    (∃ u, exec .fogen ramp = .next u ∧ u.regs.status = 0) ∧ ramp.quant = [] ∧
    (((2 * 2 : Nat) : Int) = ramp.regs.fftN) ∧ ((3 + 1 : Int) = ramp.regs.fftN) :=
  ⟨next_of_seen (f := fun t => t.regs.status) (by decide +kernel), rfl, by decide, by decide⟩

/-- The same with a quantizer that is not the default. -/
theorem witness_FogenLanesAndPeriod_other :
    let s : State := { State.powerOn other with regs := request 8 0 0 0 0 0 128 }
    s.quant ≠ [] ∧ Quantizer.Half s.regs.fftN s.quantizer ∧ Quantizer.Conj s.regs.fftN s.quantizer ∧
    (∃ u, exec .fogen s = .next u ∧ (u.regs.status, TableMemory.read u.tmInit 32 u.tm) = (0, 0x5A81)) :=
  ⟨by decide, other_half, other_conj,
    next_of_seen (f := fun t => (t.regs.status, TableMemory.read t.tmInit 32 t.tm)) (by decide +kernel)⟩

theorem witness_WrDoesItsCase :
    decode (.cmd32 0x00000003) = .ok .talkup ∧ decode (.cmd32 0x00000004) = .error .badOpcode ∧
    decode (.cmd32 0x00000100) = .error .badRsv ∧ (0x24 : Offset).toNat % 4 = 0 ∧ 0x24 ≤ (0x24 : Offset).toNat ∧
    (0xFC : Offset).toNat % 4 = 0 ∧ 0x24 ≤ (0xFC : Offset).toNat := by decide

theorem witness_RdReturnsTheRegister :
    (0x00 : Offset).toNat % 4 = 0 ∧ (0x2C : Offset).toNat % 4 = 0 ∧ (0x30 : Offset).toNat % 4 = 0 ∧
    0x30 ≤ (0x30 : Offset).toNat ∧ 0x30 ≤ (0xFC : Offset).toNat := by decide

theorem witness_RequestReadsBack :
    (0x08 : Offset).toNat % 4 = 0 ∧ (0x20 : Offset).toNat % 4 = 0 ∧ (0x20 : Offset).toNat ≤ 0x20 ∧
    ∃ t u, exec (.wr 0x08 4) (machine base) = .next t ∧ exec Command.tagen.toInstr t = .next u ∧
      u.regs.status = 0 := by
  refine ⟨by decide, by decide, by decide, ?_⟩
  obtain ⟨u, hu, h0⟩ := next_of_seen (f := fun t => t.regs.status) (a := 0)
    (o := exec .tagen (machine { base with fftSize := 4 })) (by decide +kernel)
  exact ⟨_, u, rfl, hu, h0⟩

theorem witness_EveryInstructionCompletes :
    (Instr.wr 0x00 0xFFFFFFFF).wf = true ∧ (Instr.rd 0xFC).wf = true ∧ Instr.tagen.wf = true := by decide

theorem witness_FailedCommandOnlySetsStatus :
    (∃ t, exec (.wr 0x00 0x10) State.reset = .next t ∧ t.regs.status = 0x101) ∧
    (∃ t, exec (.wr 0x00 0x12) scenario = .next t ∧ t.regs.status = 0x3004) :=
  ⟨next_of_seen (f := fun t => t.regs.status) (by decide), next_of_seen (f := fun t => t.regs.status) (by decide)⟩

/-- Every command completes in some state, with success and (but for NOP) with an error. -/
theorem witness_StatusAfterCommand :
    (∃ t, exec Command.nop.toInstr scenario = .next t ∧ t.regs.status = 0) ∧
    (∃ t, exec Command.pq.toInstr State.reset = .next t ∧ t.regs.status = 0x101) ∧
    (∃ t, exec Command.scbin.toInstr scenario = .next t ∧ t.regs.status = 0) ∧
    (∃ t, exec Command.talkup.toInstr scenario = .next t ∧ t.regs.status = 0) ∧
    (∃ t, exec Command.tagen.toInstr scenario = .next t ∧ t.regs.status = 0) ∧
    (∃ t, exec Command.fogen.toInstr ramp = .next t ∧ t.regs.status = 0) := by
  refine ⟨?_, ?_, ?_, ?_, ?_, ?_⟩ <;> exact next_of_seen (f := fun t => t.regs.status) (by decide +kernel)

theorem witness_CommandFrame :
    (∃ t, exec Command.scbin.toInstr scenario = .next t ∧ t.regs.resIdx = 0) ∧
    (∃ t, exec Command.tagen.toInstr scenario = .next t ∧ t.tm.length = 12) :=
  ⟨next_of_seen (f := fun t => t.regs.resIdx) (by decide +kernel),
    next_of_seen (f := fun t => t.tm.length) (by decide +kernel)⟩

/-- Two states that differ in registers FOGEN does not read. -/
theorem witness_OperandsAreThoseOfTheTable :
    let other := { ramp with regs := { ramp.regs with cpLen := 0xFFFFFFFF, numSc := 3, arg0 := 7, arg1 := 9 } }
    (∀ i ∈ commandReads .fogen, other.regs.read i = ramp.regs.read i) ∧ other.maxFft = ramp.maxFft ∧
    other.quant = ramp.quant ∧ other.tmInit = ramp.tmInit ∧ other.tm = ramp.tm ∧ (∃ t, exec Command.fogen.toInstr ramp = .next t ∧ t.regs.status = 0) ∧
    (∃ t, exec Command.fogen.toInstr other = .next t ∧ t.regs.status = 0) :=
  ⟨by decide, rfl, rfl, rfl, rfl, next_of_seen (f := fun t => t.regs.status) (by decide +kernel),
    next_of_seen (f := fun t => t.regs.status) (by decide +kernel)⟩

/-- The first and the last cell of the scenario's buffer change. -/
theorem witness_WritesStayInTheBuffer :
    ∃ t, exec Command.tagen.toInstr scenario = .next t ∧
      (TableMemory.read scenario.tmInit 0 t.tm, TableMemory.read scenario.tmInit 11 t.tm) = (0x0000, 0x0000) ∧
      TableMemory.read scenario.tmInit 0 scenario.tm = 0x8000 ∧ TableMemory.read scenario.tmInit 11 scenario.tm = 0x8000 := by
  obtain ⟨t, h, h'⟩ := next_of_seen
    (f := fun t => (TableMemory.read scenario.tmInit 0 t.tm, TableMemory.read scenario.tmInit 11 t.tm))
    (a := (0x0000, 0x0000)) (o := exec .tagen scenario) (by decide +kernel)
  exact ⟨t, h, h', rfl, rfl⟩

theorem witness_TableMemoryIsNeverRead : ∃ t, exec .tagen scenario = .next t ∧ t.tm.length = 12 :=
  next_of_seen (f := fun t => t.tm.length) (by decide +kernel)

theorem witness_CommandAgainChangesNothing :
    TableMemory.wf scenario.tmInit scenario.tm ∧ ∃ t, exec Command.tagen.toInstr scenario = .next t ∧ t.tm.length = 12 :=
  ⟨by decide, next_of_seen (f := fun t => t.tm.length) (by decide +kernel)⟩

/-- The buffers of the two instances touch and share no cell: cells 0 to 3, and cells 4 on. -/
theorem witness_DisjointInstancesCommute :
    twins.instances[0]? = some (request 2 0 2 0 0 0 2) ∧ twins.instances[1]? = some (request 2 0 2 0 0 4 32) ∧
    (request 2 0 2 0 0 0 2).d + 2 * (request 2 0 2 0 0 0 2).capPairs ≤ (request 2 0 2 0 0 4 32).d := by decide

theorem witness_ByteViewIsLittleEndian : (0 : Nat) + 1 < 2 ^ 32 ∧ 2 ^ 32 - 1 < 2 ^ 32 := by decide

end Sys2Proof.Tests
end

section
/-!
The state after reset (spec/10_state.md R30): its registers, and the one error its `FFTSIZE` gives to every command that
has a check.
-/

namespace Sys2Proof.Machine

@[simp] theorem Regs.reset_read (i : Nat) : Regs.reset.read i = 0 := by
  unfold Regs.read
  split <;> rfl

@[simp] theorem Regs.reset_fftN : Regs.reset.fftN = 0 := rfl

theorem State.reset_regs : State.reset.regs = Regs.reset := rfl

theorem State.resetBlock_regs (s : State) : s.resetBlock.regs = Regs.reset := rfl

/-- A list of checks that begins with the one of `FFTSIZE`, as that of every command but `NOP` does. -/
theorem firstFailed_fftNonpos {r : Regs} (h : r.fftN ≤ 0) (l : List (Bool × Cause)) :
    firstFailed ((decide (r.fftN ≤ 0), .fftNonpos) :: l) = some .fftNonpos := by
  rw [firstFailed_decide, if_pos h]

theorem runCommand_of_fftN_nonpos {c : Command} (hc : c ≠ .nop) {s : State} (h : s.regs.fftN ≤ 0) :
    runCommand c s = .next (s.raise .fftNonpos) := by
  cases c with
  | nop => exact absurd rfl hc
  | pq =>
    have hf : firstFailed (checkPq s.regs) = some .fftNonpos := firstFailed_fftNonpos h _
    rw [runCommand, execPq, execPqWith, hf]
  | scbin =>
    have hf : firstFailed (checkScbin s.regs) = some .fftNonpos := firstFailed_fftNonpos h _
    rw [runCommand, execScbin, hf]
  | talkup =>
    have hf : firstFailed (checkTalkup s) = some .fftNonpos := firstFailed_fftNonpos h _
    rw [runCommand, execTalkup, execTalkupWith, hf]
  | tagen =>
    have hf : firstFailed (checkTagen s) = some .fftNonpos := firstFailed_fftNonpos h _
    rw [runCommand, execTagen, execTagenWith, hf]
  | fogen =>
    have hf : firstFailed (checkFogen s.regs) = some .fftNonpos := firstFailed_fftNonpos h _
    rw [runCommand, execFogen, execFogenWith, hf]

/-- Registers that are those after reset leave every command but `NOP` with `FFT_NONPOS` (R30). -/
theorem ends_fftNonpos_of_reset {s : State} (hs : s.regs = Regs.reset) {c : Command} (hc : c ≠ .nop) :
    Ends c.toInstr s 0x00000101 := by
  have h : s.regs.fftN ≤ 0 := by simp [hs]
  exact (exec_toInstr c s).trans (runCommand_of_fftN_nonpos hc h)

/-- Settles O15: the stored registers are all 0, and `FFTSIZE = 0` fails the first check of every command but `NOP`. -/
theorem registersAreZeroAfterReset : Obligations.RegistersAreZeroAfterReset := by
  intro s
  refine ⟨fun i => ?_, State.resetBlock_tm s, fun c hc => ?_⟩
  · simp [State.reset_regs, State.resetBlock_regs]
  · exact ⟨ends_fftNonpos_of_reset State.reset_regs hc, ends_fftNonpos_of_reset (State.resetBlock_regs s) hc⟩

end Sys2Proof.Machine
end

section
/-!
The layout of table memory (spec/20_memory.md): the pair numbers of the timing table (R44) and the byte view (R47).
-/

namespace Sys2Proof.Machine

/-- Settles O36: the pair number's bound, and its surjectivity and injectivity onto `0 .. REQ - 1`. -/
theorem timingLayoutIsBijective : Obligations.TimingLayoutIsBijective := by
  intro CP NSC _ hN
  refine ⟨fun t k ht ht' hk hk' => ⟨pairTA_cast CP NSC t k ht hN hk, pairTA_lt CP NSC t k ht ht' hN hk hk'⟩, ?_⟩
  intro p hp
  obtain ⟨t, k, ht, ht', hk, hk', hpair⟩ := pairTA_surj CP NSC hN p hp
  refine ⟨(t, k), ⟨ht, ht', hk, hk', hpair⟩, fun ⟨u, j⟩ hu _ hj hj' hpair' => ?_⟩
  obtain ⟨rfl, rfl⟩ := pairTA_inj CP NSC u j t k hu ht hj hj' hk hk' (hpair'.trans hpair.symm)
  rfl

/-- Byte `i` of cell `a` lies at `base + 2 * a + i` (R47). -/
theorem TableMemory.byteAt_cell (init : TableInit) (m : TableMemory) (base : Nat) {a i : Nat}
    (ha : a < 2 ^ 32) (hi : i < 2) :
    TableMemory.byteAt init base (base + 2 * a + i) m
      = some ((TableMemory.read init a m).extractLsb' (8 * i) 8) := by
  have hrange : ¬(base + 2 * a + i < base ∨ base + 2 * Config.tmCells ≤ base + 2 * a + i) := by
    rw [Config.tmCells]; omega
  have hcell : (base + 2 * a + i - base) / 2 = a := by omega
  have hbyte : (base + 2 * a + i - base) % 2 = i := by omega
  rw [TableMemory.byteAt, if_neg hrange, hcell, hbyte]

/-- The two bytes of a cell, the more significant one first, are the cell. -/
theorem cell_bytes_append (c : Cell) : c.extractLsb' 8 8 ++ c.extractLsb' 0 8 = c :=
  (BitVec.extractLsb'_append_extractLsb'_eq_extractLsb' rfl).trans BitVec.extractLsb'_eq_self

/-- Settles O54: the byte at each of the addresses is that of `byteAt_cell`, and two bytes are their cell. -/
theorem byteViewIsLittleEndian : Obligations.ByteViewIsLittleEndian := by
  intro init m B a
  have low {a : Nat} (ha : a < 2 ^ 32) := TableMemory.byteAt_cell init m B ha Nat.zero_lt_two
  have high {a : Nat} (ha : a < 2 ^ 32) := TableMemory.byteAt_cell init m B ha Nat.one_lt_two
  refine ⟨fun ha => ⟨_, _, low ha, high ha, cell_bytes_append _⟩, fun ha => ?_⟩
  have ha' : a < 2 ^ 32 := by omega
  refine ⟨_, _, _, _, low ha', high ha', low ha, high ha, ?_⟩
  exact congrArg₂ (· ++ ·) (cell_bytes_append _) (cell_bytes_append _)

end Sys2Proof.Machine
end

section
/-!
The encodings (spec/30_encoding.md): the opcode map (R61), illegal command words (R63) and the expansion of the
pseudo-instructions (R67).
-/

namespace Sys2Proof.Machine

/-! The opcode map -/

theorem encode_toInstr (c : Command) : encode c.toInstr = .cmd32 (encodeCommand c) := by
  cases c <;> rfl

/-- No two commands have one word. -/
theorem encodeCommand_inj {c d : Command} (h : encodeCommand c = encodeCommand d) : c = d := by
  have hok : (.ok c : Except DecodeError Command) = .ok d := by
    rw [← decodeCommand_encodeCommand c, h, decodeCommand_encodeCommand]
  exact Except.ok.inj hok

theorem toInstr_inj {c d : Command} (h : c.toInstr = d.toInstr) : c = d := by
  have henc := congrArg encode h
  rw [encode_toInstr, encode_toInstr] at henc
  exact encodeCommand_inj (BusWord.cmd32.inj henc)

theorem decodeCommand_eq_ok_iff {w : Word} {c : Command} : decodeCommand w = .ok c ↔ w = encodeCommand c :=
  ⟨eq_encodeCommand, fun h => h ▸ decodeCommand_encodeCommand c⟩

theorem decode_cmd32_eq_ok_iff (w : Word) (c : Command) :
    decode (.cmd32 w) = .ok c.toInstr ↔ w = encodeCommand c := by
  rw [← decodeCommand_eq_ok_iff, decode]
  cases decodeCommand w with
  | ok d => simpa using ⟨toInstr_inj, congrArg Command.toInstr⟩
  | error e => simp

/-- Settles O3: the six rows of `decode_cmd32_eq_ok_iff`. -/
theorem opcodeMapIsExact : Obligations.OpcodeMapIsExact := fun w =>
  ⟨decode_cmd32_eq_ok_iff w .nop, decode_cmd32_eq_ok_iff w .pq, decode_cmd32_eq_ok_iff w .scbin,
    decode_cmd32_eq_ok_iff w .talkup, decode_cmd32_eq_ok_iff w .tagen, decode_cmd32_eq_ok_iff w .fogen⟩

/-! Illegal command words -/

/-- The column `OPC` of R61. -/
theorem encodeCommand_toNat_mem (c : Command) :
    (encodeCommand c).toNat ∈ [0x00, 0x01, 0x02, 0x03, 0x10, 0x11] := by
  cases c <;> decide

theorem encodeCommand_toNat_lt (c : Command) : (encodeCommand c).toNat < 256 := by
  cases c <;> decide

theorem decodeCommand_eq_badRsv {w : Word} (h : 256 ≤ w.toNat) : decodeCommand w = .error .badRsv := by
  cases hd : decodeCommand w with
  | ok c =>
    have := encodeCommand_toNat_lt c
    rw [← eq_encodeCommand hd] at this
    omega
  | error e =>
    obtain ⟨-, rfl⟩ | ⟨hlt, -⟩ := decodeCommand_error hd
    · rfl
    · omega

theorem decodeCommand_eq_badOpcode {w : Word} (h : w.toNat < 256)
    (hopc : w.toNat ∉ [0x00, 0x01, 0x02, 0x03, 0x10, 0x11]) : decodeCommand w = .error .badOpcode := by
  cases hd : decodeCommand w with
  | ok c => exact absurd (eq_encodeCommand hd ▸ encodeCommand_toNat_mem c) hopc
  | error e =>
    obtain ⟨hge, -⟩ | ⟨-, rfl⟩ := decodeCommand_error hd
    · omega
    · rfl

/-- A host write to `CMD` issues its word (R131). -/
theorem exec_wr_cmd (w : Word) (s : State) : exec (.wr 0x00 w) s = issueCommand w s := rfl

theorem exec_wr_cmd_of_error {w : Word} {e : DecodeError} (h : decodeCommand w = .error e) (s : State) :
    exec (.wr 0x00 w) s = answerUndecoded e s := by
  rw [exec_wr_cmd, issueCommand, h]

/-- Settles O5: the word decodes to the error its `RSV` and `OPC` name, and the answer to that is the error return. -/
theorem illegalCommandWords : Obligations.IllegalCommandWords := fun s _ =>
  ⟨fun hrsv => exec_wr_cmd_of_error (decodeCommand_eq_badRsv hrsv) s,
    fun hlt hopc => exec_wr_cmd_of_error (decodeCommand_eq_badOpcode hlt hopc) s⟩

/-! Pseudo-instructions -/

/-- Register numbers give aligned offsets (R10). -/
theorem aligned_regOffset (reg : Nat) : Offset.aligned (BitVec.ofNat 8 (4 * reg)) = true := by
  rw [Offset.aligned, BitVec.toNat_ofNat, beq_iff_eq]
  omega

@[simp] theorem decode_asmWr (reg : Nat) (v : Int) :
    decode (.bus41 (asmWr reg v)) = .ok (.wr (BitVec.ofNat 8 (4 * reg)) (u32 v)) :=
  decodeRecord_write _ _ (aligned_regOffset reg)

@[simp] theorem decode_asmCommand (c : Command) :
    decode (.bus41 (asmCommand c)) = .ok (.wr 0x00 (encodeCommand c)) :=
  decodeRecord_write _ _ rfl

theorem decode_expand_command (c : Command) :
    ((Pseudo.command c).expand.map fun r => decode (.bus41 r)) = [.ok (.wr 0x00 (encodeCommand c))] := by
  simp [Pseudo.expand]

/-- Settles O7: every record of an expansion is the `asmWr` or the `asmCommand` of its column, and decodes to that
write. -/
theorem pseudoInstructionsAreWrites : Obligations.PseudoInstructionsAreWrites := by
  refine ⟨decode_expand_command .nop, decode_expand_command .pq, decode_expand_command .scbin,
    decode_expand_command .talkup, decode_expand_command .tagen, decode_expand_command .fogen,
    fun f c s => ?_, fun f => ?_, fun d c => ?_, fun n => ?_, fun k => ?_, fun t k => ?_⟩
  all_goals simp [Pseudo.expand, encodeCommand]

end Sys2Proof.Machine
end

section
/-!
The quantizer (spec/40_quantizer.md): `PhaseQ` is the rounded cosine and sine of its angle (R8, R81), and has the
properties of R84 because cosine, sine and the rounding have them; the command PQ (R80).
-/

namespace Sys2Proof.Machine

/-! The rounded cosine and sine of an angle -/

/-- The rounded cosine and sine of the angle `x` (R8). -/
noncomputable def angleSample (x : ℝ) : Sample := ⟨q15R (Real.cos x), q15R (Real.sin x)⟩

theorem exactPhase_eq (n N : ℤ) : exactPhase n N = angleSample (angle n N) := rfl

theorem angleSample_zero : angleSample 0 = ⟨32767, 0⟩ := by
  rw [angleSample, Real.cos_zero, Real.sin_zero, q15R_one, q15R_zero]

theorem angleSample_neg (x : ℝ) : angleSample (-x) = ⟨(angleSample x).cos, -(angleSample x).sin⟩ := by
  simp only [angleSample, Real.cos_neg, Real.sin_neg, q15R_neg]

theorem angleSample_add_int_mul_two_pi (x : ℝ) (k : ℤ) : angleSample (x + k * (2 * Real.pi)) = angleSample x := by
  simp only [angleSample, Real.cos_add_int_mul_two_pi, Real.sin_add_int_mul_two_pi]

theorem angleSample_add_pi_div_two (x : ℝ) :
    angleSample (x + Real.pi / 2) = ⟨-(angleSample x).sin, (angleSample x).cos⟩ := by
  simp only [angleSample, Real.cos_add_pi_div_two, Real.sin_add_pi_div_two, q15R_neg]

theorem angleSample_add_quarterTurns (x : ℝ) {j : ℕ} (hj : j < 4) :
    angleSample (x + j * (Real.pi / 2)) = quarterTurns j (angleSample x) := by
  have oneMore (i : ℕ) : x + (i + 1 : ℕ) * (Real.pi / 2) = x + i * (Real.pi / 2) + Real.pi / 2 := by
    push_cast; ring
  interval_cases j <;> simp only [oneMore, angleSample_add_pi_div_two, quarterTurns] <;> simp

/-- The evaluator's first quadrant, in these terms. -/
theorem firstQuadrant_eq_angleSample {r N : ℕ} (hr : r < N) : firstQuadrant r N = angleSample (quadAngle r N) := by
  obtain ⟨h0, h1⟩ := quadAngle_bounds r N hr
  have hpi := Real.pi_pos
  rw [firstQuadrant_exact r N hr, angleSample,
    q15R_nonneg (Real.cos_nonneg_of_neg_pi_div_two_le_of_le (by linarith) h1),
    q15R_nonneg (Real.sin_nonneg_of_nonneg_of_le_pi h0 (by linarith))]

/-! The angle of R8 -/

theorem angle_neg (n N : ℤ) : angle (-n) N = -angle n N := by
  rw [angle, angle]; push_cast; ring

theorem angle_add (n m N : ℤ) : angle (n + m) N = angle n N + angle m N := by
  rw [angle, angle, angle]; push_cast; ring

theorem angle_of_four_mul_eq {n N : ℤ} {j : ℕ} (hN : 0 < N) (h : 4 * n = j * N) : angle n N = j * (Real.pi / 2) := by
  have hN' : (N : ℝ) ≠ 0 := by exact_mod_cast hN.ne'
  have h' : 4 * (n : ℝ) = j * N := by exact_mod_cast h
  rw [angle, div_eq_iff hN']
  linear_combination Real.pi / 2 * h'

/-- The angle of `n/N` taken apart as the evaluator does it: the rest, quarter turns, and whole turns. -/
theorem angle_eq_quadAngle_add {n : ℤ} {m N : ℕ} (hN : 0 < N) (hm : n % N = m) :
    angle n N = quadAngle (4 * m % N) N + (4 * m / N : ℕ) * (Real.pi / 2) + (n / N : ℤ) * (2 * Real.pi) := by
  have hN' : (N : ℝ) ≠ 0 := by exact_mod_cast hN.ne'
  have hwhole : (n : ℝ) = m + N * (n / N : ℤ) := by
    have h := Int.emod_add_mul_ediv n N
    rw [hm] at h
    exact_mod_cast h.symm
  have hquarter : (4 * m : ℝ) = (4 * m % N : ℕ) + N * (4 * m / N : ℕ) := by
    exact_mod_cast (Nat.mod_add_div (4 * m) N).symm
  rw [angle, quadAngle, Int.cast_natCast, div_eq_iff hN', hwhole]
  field_simp
  linear_combination hquarter

/-! The default quantizer -/

/-- The evaluator computes the function of R8. -/
theorem phaseQ_eq_exactPhase (n : ℤ) {N : ℤ} (hN : 0 < N) : phaseQ n N = exactPhase n N := by
  lift N to ℕ using hN.le
  have hN : 0 < N := by exact_mod_cast hN
  have hm : n % N = ((n % N).toNat : ℤ) := (Int.toNat_of_nonneg (Int.emod_nonneg n (by omega))).symm
  have hlt := Int.emod_lt_of_pos n (b := N) (by omega)
  have hj : 4 * (n % N).toNat / N < 4 := Nat.div_lt_of_lt_mul (by omega)
  rw [exactPhase_eq, angle_eq_quadAngle_add hN hm, angleSample_add_int_mul_two_pi, angleSample_add_quarterTurns _ hj,
    ← firstQuadrant_eq_angleSample (Nat.mod_lt _ hN), phaseQ, Int.toNat_natCast]

theorem exactPhase_of_four_mul_eq {n N : ℤ} {j : ℕ} (hN : 0 < N) (hj : j < 4) (h : 4 * n = j * N) :
    exactPhase n N = quarterTurns j ⟨32767, 0⟩ := by
  rw [exactPhase_eq, angle_of_four_mul_eq hN h, ← zero_add (_ * _), angleSample_add_quarterTurns _ hj,
    angleSample_zero]

theorem exactPhase_add_of_four_mul_eq (n : ℤ) {m N : ℤ} {j : ℕ} (hN : 0 < N) (hj : j < 4) (h : 4 * m = j * N) :
    exactPhase (n + m) N = quarterTurns j (exactPhase n N) := by
  rw [exactPhase_eq, angle_add, angle_of_four_mul_eq hN h, angleSample_add_quarterTurns _ hj, ← exactPhase_eq]

/-- (P-period) of R84, of every quantizer. -/
theorem quantize_wrap (l : List QuantEntry) (n : ℤ) {N : ℤ} (hN : 0 < N) :
    quantize l (wrap n N) N = quantize l n N := by
  rw [wrap_eq_emod n N hN, quantize_emod l n N hN]

/-- (P-zero) and (P-quadrant) of R84, of every quantizer. -/
theorem quantize_of_four_mul_wrap_eq (l : List QuantEntry) {n N : ℤ} {j : ℕ} (hN : 0 < N) (hj : j < 4)
    (h : 4 * wrap n N = j * N) : quantize l n N = quarterTurns j ⟨32767, 0⟩ := by
  rw [quantize_quadrant l n N (by rw [h, Int.mul_emod_left]), ← quantize_nil, ← quantize_wrap [] n hN, quantize_nil,
    phaseQ_eq_exactPhase _ hN, exactPhase_of_four_mul_eq hN hj h]

theorem phaseQ_admissible : Quantizer.Admissible 0 phaseQ where
  range n N hN := by
    obtain ⟨⟨hc, hc'⟩, hs, hs'⟩ := phaseQ_range n N hN
    exact ⟨hc, hc', hs, hs'⟩
  period n N hN := (quantize_wrap [] n hN).symm
  zero N hN := quantize_of_four_mul_wrap_eq [] (j := 0) hN (by decide) (by rw [wrap_eq_emod 0 N hN]; simp)
  quadrant1 n N hN h := quantize_of_four_mul_wrap_eq [] (j := 1) hN (by decide) (by simpa using h)
  quadrant2 n N hN h := quantize_of_four_mul_wrap_eq [] (j := 2) hN (by decide) h
  quadrant3 n N hN h := quantize_of_four_mul_wrap_eq [] (j := 3) hN (by decide) h
  nearCos n N hN := by
    rw [phaseQ_eq_exactPhase n hN, add_zero]
    exact q15R_near _
  nearSin n N hN := by
    rw [phaseQ_eq_exactPhase n hN, add_zero]
    exact q15R_near _

theorem phaseQ_conj {N : ℤ} (hN : 0 < N) : Quantizer.Conj N phaseQ := fun n => by
  rw [phaseQ_eq_exactPhase _ hN, phaseQ_eq_exactPhase n hN, exactPhase_eq, angle_neg, angleSample_neg, ← exactPhase_eq]

theorem phaseQ_half {N : ℤ} (hN : 0 < N) : Quantizer.Half N phaseQ := fun heven n => by
  have h : 4 * (N / 2) = (2 : ℕ) * N := by push_cast; omega
  rw [phaseQ_eq_exactPhase _ hN, phaseQ_eq_exactPhase n hN, exactPhase_add_of_four_mul_eq n hN (by decide) h]
  rfl

theorem phaseQ_quarter {N : ℤ} (hN : 0 < N) : Quantizer.Quarter N phaseQ := fun hfour n => by
  have h : 4 * (N / 4) = (1 : ℕ) * N := by push_cast; omega
  rw [phaseQ_eq_exactPhase _ hN, phaseQ_eq_exactPhase n hN, exactPhase_add_of_four_mul_eq n hN (by decide) h]
  rfl

/-- Settles O23: the properties of `phaseQ`, which without entries is the quantizer. -/
theorem quantizerHasItsProperties : Obligations.QuantizerHasItsProperties := by
  rw [Obligations.QuantizerHasItsProperties, quantize_nil]
  exact ⟨phaseQ_admissible, fun _ hN => ⟨phaseQ_conj hN, phaseQ_half hN, phaseQ_quarter hN⟩⟩

/-! The command PQ -/

/-- What the platform's quantizer answers is its phase sample (R81). -/
theorem isSample_quantizer (s : State) (n : ℤ) {N : ℤ} (hN : 0 < N) : IsSample s n N (s.quantizer n N) := by
  refine ⟨rfl, (quantize_emod s.quant n N hN).symm, fun hnone => ?_⟩
  rw [State.quantizer, hnone, quantize_nil, phaseQ_eq_exactPhase n hN]

/-- The registers of a sample read back as its components, which are in their range (R20, R21). -/
theorem toInt_quantizer_registers (s : State) (n : ℤ) {N : ℤ} (hN : 0 < N) :
    (sext32 (enc16 (s.quantizer n N).cos)).toInt = (s.quantizer n N).cos ∧
    (sext32 (enc16 (s.quantizer n N).sin)).toInt = (s.quantizer n N).sin := by
  obtain ⟨⟨hc, hc'⟩, hs, hs'⟩ := quantize_range s.quant n N hN
  exact ⟨toInt_sext32_enc16 _ (le_trans (by decide) hc) hc', toInt_sext32_enc16 _ (le_trans (by decide) hs) hs'⟩

theorem ends_fftNonpos {c : Command} (hc : c ≠ .nop) {s : State} (h : s.regs.fftN ≤ 0) :
    Ends c.toInstr s 0x00000101 :=
  (exec_toInstr c s).trans (runCommand_of_fftN_nonpos hc h)

theorem exec_pq_of_pos {s : State} (hN : 0 < s.regs.fftN) :
    exec .pq s = .next
      ((s.putSample (s.quantizer s.regs.a0 s.regs.fftN)).putIndex (wrap s.regs.a0 s.regs.fftN)).succeed := by
  obtain ⟨c, hfails, -⟩ | ⟨-, hexec⟩ := execPqWith_cases s.quantizer s
  · simp [(checkPq_ok s.regs).2 hN] at hfails
  · exact hexec

/-- Settles O27: the check that fails, and `exec_pq_of_pos` with the stored words read back. -/
theorem pqQuantizesItsAngle : Obligations.PqQuantizesItsAngle := by
  refine ⟨(decode_cmd32_eq_ok_iff _ .pq).2 rfl, fun s => ⟨ends_fftNonpos (c := .pq) nofun, fun hN => ?_⟩⟩
  obtain ⟨hcos, hsin⟩ := toInt_quantizer_registers s s.regs.a0 hN
  have hidx := toInt_u32 _ (wrap_nonneg s.regs.a0 _ hN) ((wrap_lt _ _ hN).trans (fftN_lt s.regs))
  exact ⟨_, _, _, _, exec_pq_of_pos hN, isSample_quantizer s s.regs.a0 hN, hcos, hsin, hidx⟩

end Sys2Proof.Machine
end

section
/-!
The remapper (spec/41_remapper.md): the bin function is the centred residue, so its index is got back from its bin (R90,
R92); the command SCBIN (R91).
-/

namespace Sys2Proof.Machine

/-! The bin function -/

theorem bin_eq_centredBin {N NSC k : Int} (h : BinDomain N NSC k) : bin N NSC k = some (centredBin N NSC k) :=
  bin_of_domain h

/-- Settles O28: the two branches of `bin`. -/
theorem binHasItsFormula : Obligations.BinHasItsFormula := fun _ _ _ => ⟨bin_eq_centredBin, bin_outside⟩

theorem centredBin_bounds {N NSC k : Int} (h : BinDomain N NSC k) :
    0 ≤ centredBin N NSC k ∧ centredBin N NSC k < N := by
  obtain ⟨-, hnonneg, hlt, -⟩ := bin_eq_some (bin_eq_centredBin h)
  exact ⟨hnonneg, hlt⟩

/-- The bin is the residue of the distance from the DC index. -/
theorem centredBin_eq_emod {N NSC k : Int} (h : BinDomain N NSC k) : centredBin N NSC k = (k - NSC / 2) % N := by
  obtain ⟨-, -, -, hemod⟩ := bin_eq_some (bin_eq_centredBin h)
  exact hemod

/-- With every bin in use, the two halves change places. -/
theorem centredBin_self {N k : Int} (h : BinDomain N N k) : centredBin N N k = (k + N / 2) % N := by
  have heven := h.1
  have hturn : k + N / 2 = k - N / 2 + N := by omega
  rw [centredBin_eq_emod h, hturn, Int.add_emod_right]

/-- The index is got back from its bin. -/
theorem eq_emod_of_bin_eq_some {N NSC k b : Int} (h : bin N NSC k = some b) : k = (b + NSC / 2) % N := by
  obtain ⟨⟨-, -, hle, h0, hlt⟩, -, -, rfl⟩ := bin_eq_some h
  rw [Int.emod_add_emod, sub_add_cancel, Int.emod_eq_of_lt h0 (hlt.trans_le hle)]

/-- Settles O29: the halves of the formula, its bounds and its residue; injective since the index is got back. -/
theorem binIsCentredBijection : Obligations.BinIsCentredBijection := by
  intro N NSC heven hpos hle
  have dom {k : Int} (h0 : 0 ≤ k) (hlt : k < NSC) : BinDomain N NSC k := ⟨heven, hpos, hle, h0, hlt⟩
  refine ⟨fun k h0 hlt => ?_, fun k k' b h h' => ?_, ?_⟩
  · have hd := dom h0 hlt
    obtain ⟨hnonneg, hltN⟩ := centredBin_bounds hd
    refine ⟨_, bin_eq_centredBin hd, hnonneg, hltN, fun hfirst => ?_, fun hsecond => ?_, ?_, ?_⟩
    · rw [centredBin, if_pos hfirst, add_comm]
    · rw [centredBin, if_neg hsecond.not_gt]
    · rw [wrap_eq_emod _ _ (hpos.trans_le hle), centredBin_eq_emod hd]
    · rintro rfl
      exact centredBin_self hd
  · rw [eq_emod_of_bin_eq_some h, eq_emod_of_bin_eq_some h']
  · rw [bin_eq_centredBin (dom (by omega) (by omega)), centredBin, if_neg (lt_irrefl _), sub_self]

/-! The command SCBIN -/

/-- The first cause of the checks that R91 and R103 share. -/
theorem firstFailed_checkNsc (r : Regs) :
    firstFailed (checkNsc r) =
      if r.nsc ≤ 0 then some .nscNonpos
      else if r.nsc % 2 = 1 then some .nscOdd
      else if r.nsc > r.fftN then some .nscGtFft
      else none := by
  simp only [checkNsc, firstFailed_decide, firstFailed_nil]

theorem firstFailed_checkScbin (r : Regs) :
    firstFailed (checkScbin r) =
      if r.fftN ≤ 0 then some .fftNonpos
      else (firstFailed (checkNsc r)).or (if r.a0 < 0 ∨ r.nsc ≤ r.a0 then some .arg0Range else none) := by
  rw [checkScbin, List.cons_append, firstFailed_decide, firstFailed_append, ← Bool.decide_or, firstFailed_decide,
    firstFailed_nil]

theorem ends_scbin_of_failed {s : State} {c : Cause} (h : firstFailed (checkScbin s.regs) = some c) :
    Ends .scbin s (statusWord c) := by
  obtain ⟨d, hd, hexec⟩ | ⟨b, hdom, -⟩ := execScbin_cases s
  · rw [h, Option.some.injEq] at hd
    rw [hd]
    exact hexec
  · rw [(checkScbin_ok s.regs).2 hdom] at h
    contradiction

/-- The end of SCBIN on a request whose `FFTSIZE` passes and whose `NUMSC` does not. -/
theorem ends_scbin_of_checkNsc {s : State} {c : Cause} (hN : 0 < s.regs.fftN)
    (h : firstFailed (checkNsc s.regs) = some c) : Ends .scbin s (statusWord c) :=
  ends_scbin_of_failed (by rw [firstFailed_checkScbin, if_neg hN.not_ge, h, Option.some_or])

theorem exec_scbin_of_domain {s : State} (h : BinDomain s.regs.fftN s.regs.nsc s.regs.a0) :
    exec .scbin s = .next (s.putIndex (centredBin s.regs.fftN s.regs.nsc s.regs.a0)).succeed := by
  obtain ⟨c, hfails, -⟩ | ⟨b, -, hbin, hexec⟩ := execScbin_cases s
  · rw [(checkScbin_ok s.regs).2 h] at hfails
    contradiction
  · rw [bin_eq_centredBin h, Option.some.injEq] at hbin
    rw [hbin]
    exact hexec

/-- Settles O30: the first check that fails in each range of the operands, and `exec_scbin_of_domain` with the stored
word read back. -/
theorem scbinRemapsItsIndex : Obligations.ScbinRemapsItsIndex := by
  refine ⟨(decode_cmd32_eq_ok_iff _ .scbin).2 rfl, fun s => ⟨ends_fftNonpos (c := .scbin) nofun, fun hN =>
    ⟨fun hnonpos => ?_, fun hpos => ⟨fun hodd => ?_, fun heven => ⟨fun hgt => ?_, fun hle =>
      ⟨fun hrange => ?_, fun h0 hlt => ?_⟩⟩⟩⟩⟩⟩
  · have hcause : firstFailed (checkNsc s.regs) = some .nscNonpos := by rw [firstFailed_checkNsc, if_pos hnonpos]
    exact ends_scbin_of_checkNsc hN hcause
  · have hcause : firstFailed (checkNsc s.regs) = some .nscOdd := by
      rw [firstFailed_checkNsc, if_neg hpos.not_ge, if_pos hodd]
    exact ends_scbin_of_checkNsc hN hcause
  · have hcause : firstFailed (checkNsc s.regs) = some .nscGtFft := by
      rw [firstFailed_checkNsc, if_neg hpos.not_ge, if_neg (by omega), if_pos hgt]
    exact ends_scbin_of_checkNsc hN hcause
  · have hcause : firstFailed (checkScbin s.regs) = some .arg0Range := by
      rw [firstFailed_checkScbin, if_neg hN.not_ge, (checkNsc_ok s.regs).2 ⟨hpos, heven, hle⟩, Option.none_or,
        if_pos hrange]
    exact ends_scbin_of_failed hcause
  · have hd : BinDomain s.regs.fftN s.regs.nsc s.regs.a0 := ⟨heven, hpos, hle, h0, hlt⟩
    obtain ⟨hnonneg, hltN⟩ := centredBin_bounds hd
    exact ⟨_, exec_scbin_of_domain hd, toInt_u32 _ hnonneg (hltN.trans (fftN_lt s.regs))⟩

end Sys2Proof.Machine
end

section
/-!
The timing table (spec/42_timing_table.md): its index (R100, R109), the checks of a request (R103, R105), and the
commands TALKUP (R102) and TAGEN (R106).
-/

namespace Sys2Proof.Machine

/-! The table index -/

theorem tableIndex_eq_emod {N : Int} (hN : 0 < N) (b t : Int) : tableIndex N b t = b * t % N :=
  wrap_eq_emod _ _ hN

/-- Settles O32: the bounds of `wrap`, and the floor modulo it is. -/
theorem tableIndexInRange : Obligations.TableIndexInRange := by
  intro N b t hN
  refine ⟨wrap_nonneg _ _ hN, wrap_lt _ _ hN, ?_⟩
  rw [tableIndex_eq_emod hN]
  exact Int.dvd_self_sub_emod

/-! The checks -/

theorem firstFailed_checkTA (r : Regs) :
    firstFailed (checkTA r) =
      if r.fftN ≤ 0 then some .fftNonpos
      else if isPow2 r.fftN = false then some .fftNotPow2
      else if r.cp < 0 then some .cpNeg
      else firstFailed (checkNsc r) := by
  simp only [checkTA, List.cons_append, List.nil_append, firstFailed_cons, decide_eq_true_eq, Bool.not_eq_true']

/-- The cause that `CheckTA` finds is the one of R103. -/
theorem statusWord_eq_taStatus {r : Regs} {c : Cause} (h : firstFailed (checkTA r) = some c) :
    statusWord c = taStatus r := by
  rw [firstFailed_checkTA, firstFailed_checkNsc] at h
  simp only [taStatus, ← isPow2_iff, Bool.not_eq_true]
  split_ifs at h ⊢ <;> cases h <;> rfl

theorem exists_firstFailed_checkTA {r : Regs} (h : ¬ValidTA r) : ∃ c, firstFailed (checkTA r) = some c :=
  Option.ne_none_iff_exists'.1 (mt (checkTA_ok r).1 h)

theorem firstFailed_checkMax (s : State) :
    firstFailed (checkMax s) = if s.maxFft < s.regs.fftN then some .fftGtMax else none := by
  rw [checkMax, firstFailed_decide, firstFailed_nil]

theorem firstFailed_checkTalkup_of_checkTA {s : State} {c : Cause} (h : firstFailed (checkTA s.regs) = some c) :
    firstFailed (checkTalkup s) = some c := by
  rw [checkTalkup, List.append_assoc, firstFailed_append, h, Option.some_or]

/-- The checks of TALKUP that `CheckTA` leaves (R102). -/
theorem firstFailed_checkTalkup_of_valid {s : State} (h : ValidTA s.regs) :
    firstFailed (checkTalkup s) =
      if s.regs.a0 < -s.regs.cp ∨ s.regs.cp < s.regs.a0 then some .arg0Range
      else if s.regs.a1 < 0 ∨ s.regs.nsc ≤ s.regs.a1 then some .arg1Range
      else if s.maxFft < s.regs.fftN then some .fftGtMax
      else none := by
  rw [checkTalkup, List.append_assoc, firstFailed_append, (checkTA_ok s.regs).2 h, Option.none_or, List.cons_append,
    List.cons_append, List.nil_append, ← Bool.decide_or, ← Bool.decide_or, firstFailed_decide, firstFailed_decide,
    firstFailed_checkMax]

theorem firstFailed_checkTagen_of_checkTA {s : State} {c : Cause} (h : firstFailed (checkTA s.regs) = some c) :
    firstFailed (checkTagen s) = some c := by
  rw [checkTagen, List.append_assoc, firstFailed_append, h, Option.some_or]

/-- The checks of TAGEN that `CheckTA` leaves (R105). -/
theorem firstFailed_checkTagen_of_valid {s : State} (h : ValidTA s.regs) :
    firstFailed (checkTagen s) =
      if s.maxFft < s.regs.fftN then some .fftGtMax
      else firstFailed (checkBuffer s.regs ((2 * s.regs.cp + 1) * s.regs.nsc)) := by
  rw [checkTagen, List.append_assoc, firstFailed_append, (checkTA_ok s.regs).2 h, Option.none_or, firstFailed_append,
    firstFailed_checkMax, reqTA]
  split_ifs
  · rw [Option.some_or]
  · rw [Option.none_or]

/-! Requests that fail -/

theorem ends_talkup_of_failed {s : State} {c : Cause} (h : firstFailed (checkTalkup s) = some c) :
    Ends .talkup s (statusWord c) := by
  obtain ⟨d, hd, hexec⟩ | ⟨b, hpass, -⟩ := execTalkupWith_cases s.quantizer s
  · rw [h, Option.some.injEq] at hd
    rw [hd]
    exact hexec
  · rw [h] at hpass
    contradiction

theorem ends_tagen_of_failed {s : State} {c : Cause} (h : firstFailed (checkTagen s) = some c) :
    Ends .tagen s (statusWord c) := by
  obtain ⟨d, hd, hexec⟩ | ⟨bins, hpass, -⟩ := execTagenWith_cases s.quantizer s
  · rw [h, Option.some.injEq] at hd
    rw [hd]
    exact hexec
  · rw [(checkTagen_ok s).2 hpass] at h
    contradiction

theorem ends_talkup_of_not_valid {s : State} (h : ¬ValidTA s.regs) : Ends .talkup s (taStatus s.regs) := by
  obtain ⟨c, hc⟩ := exists_firstFailed_checkTA h
  rw [← statusWord_eq_taStatus hc]
  exact ends_talkup_of_failed (firstFailed_checkTalkup_of_checkTA hc)

theorem ends_tagen_of_not_valid {s : State} (h : ¬ValidTA s.regs) : Ends .tagen s (taStatus s.regs) := by
  obtain ⟨c, hc⟩ := exists_firstFailed_checkTA h
  rw [← statusWord_eq_taStatus hc]
  exact ends_tagen_of_failed (firstFailed_checkTagen_of_checkTA hc)

/-- The largest power of two that `FFTSIZE` can hold (R13). -/
theorem fftN_le_of_eq_two_pow {r : Regs} {e : Nat} (h : r.fftN = 2 ^ e) : r.fftN ≤ 2 ^ 30 := by
  have hlt : (2 : Int) ^ e < 2 ^ 31 := h ▸ fftN_lt r
  have he : e < 31 := (pow_lt_pow_iff_right₀ (by decide)).1 hlt
  rw [h]
  exact pow_le_pow_right₀ (by decide) (by omega)

/-- Settles O31: the cause that `CheckTA` finds ends either command, and the bounds of a valid request are those of its
registers. -/
theorem invalidTimingRequestsRejected : Obligations.InvalidTimingRequestsRejected := by
  refine fun s => ⟨fun h => ⟨ends_talkup_of_not_valid h, ends_tagen_of_not_valid h⟩, ?_⟩
  rintro ⟨-, ⟨e, he⟩, hcp, hpos, heven, hle⟩
  exact ⟨by omega, hle, fftN_le_of_eq_two_pow he, hcp, Int.le_sub_one_of_lt (word_toInt_lt s.regs.cpLen)⟩

/-! The command TALKUP -/

theorem exec_talkup_of_passed {s : State} (hv : ValidTA s.regs) (h : firstFailed (checkTalkup s) = none) :
    exec .talkup s = .next
      ((s.putIndex (centredBin s.regs.fftN s.regs.nsc s.regs.a1 * s.regs.a0 % s.regs.fftN)).putSample
        (s.quantizer (centredBin s.regs.fftN s.regs.nsc s.regs.a1 * s.regs.a0) s.regs.fftN)).succeed := by
  obtain ⟨c, hc, -⟩ | ⟨b, -, hbin, hexec⟩ := execTalkupWith_cases s.quantizer s
  · rw [h] at hc
    contradiction
  · rw [bin_eq_centredBin (bin_eq_some hbin).1, Option.some.injEq] at hbin
    subst hbin
    rw [tableIndex_eq_emod hv.1, State.quantizer, quantize_emod _ _ _ hv.1] at hexec
    exact hexec

/-- Settles O33: the first check that fails in each range of the operands, and `exec_talkup_of_passed` with the stored
words read back. -/
theorem talkupLooksUpItsEntry : Obligations.TalkupLooksUpItsEntry := by
  refine ⟨(decode_cmd32_eq_ok_iff _ .talkup).2 rfl, fun s => ⟨ends_talkup_of_not_valid, fun hv => ?_⟩⟩
  have hchecks := firstFailed_checkTalkup_of_valid hv
  refine ⟨fun ht => ?_, fun ht ht' => ⟨fun hk => ?_, fun hk hk' => ⟨fun hmax => ?_, fun hmax => ?_⟩⟩⟩
  · rw [if_pos ht] at hchecks
    exact ends_talkup_of_failed hchecks
  · rw [if_neg (by omega), if_pos hk] at hchecks
    exact ends_talkup_of_failed hchecks
  · rw [if_neg (by omega), if_neg (by omega), if_pos hmax] at hchecks
    exact ends_talkup_of_failed hchecks
  · have hpass := (checkTalkup_ok s).2 ⟨hv, ⟨ht, ht'⟩, ⟨hk, hk'⟩, hmax⟩
    have hN := hv.1
    obtain ⟨hcos, hsin⟩ := toInt_quantizer_registers s (centredBin s.regs.fftN s.regs.nsc s.regs.a1 * s.regs.a0) hN
    have hidx := toInt_u32 _ (Int.emod_nonneg (centredBin s.regs.fftN s.regs.nsc s.regs.a1 * s.regs.a0) hN.ne')
      ((Int.emod_lt_of_pos _ hN).trans (fftN_lt s.regs))
    exact ⟨_, _, _, _, exec_talkup_of_passed hv hpass, hidx, isSample_quantizer s _ hN, hcos, hsin⟩

/-! The command TAGEN -/

/-- A request with its resources leaves the entry of every timing offset and subcarrier in the two cells of its pair,
and every cell outside the table as it was, whatever the quantizer (R104, R106). -/
theorem execTagenWith_table (q : Quantizer) {s : State} (hv : ValidTA s.regs) (hr : ResourceTA s) :
    ∃ m : TableMemory,
      execTagenWith q s = .next { s with regs := { s.regs with status := 0 }, tm := m } ∧
      (∀ (t k : Int) (p : Nat), -s.regs.cp ≤ t → t ≤ s.regs.cp → 0 ≤ k → k < s.regs.nsc →
        (p : Int) = (t + s.regs.cp) * s.regs.nsc + k →
        TableMemory.read s.tmInit (s.regs.d + 2 * p) m
          = enc16 (q (centredBin s.regs.fftN s.regs.nsc k * t % s.regs.fftN) s.regs.fftN).cos ∧
        TableMemory.read s.tmInit (s.regs.d + 2 * p + 1) m
          = enc16 (q (centredBin s.regs.fftN s.regs.nsc k * t % s.regs.fftN) s.regs.fftN).sin) ∧
      ∀ a : Nat, (a < s.regs.d ∨ (s.regs.d : Int) + 2 * ((2 * s.regs.cp + 1) * s.regs.nsc) ≤ a) →
        TableMemory.read s.tmInit a m = TableMemory.read s.tmInit a s.tm := by
  obtain ⟨c, hc, -⟩ | ⟨bins, -, hbins, hexec⟩ := execTagenWith_cases q s
  · rw [(checkTagen_ok s).2 ⟨hv, hr⟩] at hc
    contradiction
  rw [State.writeTable_eq _ _ (writesTA_cells hv hr hbins)] at hexec
  refine ⟨_, hexec, fun t k p ht ht' h0 hlt hp => ?_, fun a ha => ?_⟩
  · have hdom := hv.binDomain h0 hlt
    have hpair : pairTA s.regs.cp s.regs.nsc t k = p := by
      have := pairTA_cast s.regs.cp s.regs.nsc t k ht hdom.2.1 h0
      omega
    rw [← hpair, ← tableIndex_eq_emod hv.1]
    exact writesTA_read hbins s.tmInit s.tm t k _ ⟨ht, ht'⟩ (bin_eq_centredBin hdom)
  · refine TableMemory.read_writeAll_other _ _ _ _ fun w hw heq => ?_
    obtain ⟨hlow, hhigh⟩ := writesTA_range hv hbins hw
    rw [reqTA] at hhigh
    omega

/-- Settles O37: the first check that fails in each range of the resources, and `execTagenWith_table` with the
quantizer of the platform. -/
theorem tagenWritesTheTable : Obligations.TagenWritesTheTable := by
  refine ⟨(decode_cmd32_eq_ok_iff _ .tagen).2 rfl, fun s => ⟨ends_tagen_of_not_valid, fun hv => ?_⟩⟩
  have hchecks := firstFailed_checkTagen_of_valid hv
  refine ⟨fun hmax => ?_, fun hmax => ⟨fun hcap => ?_, fun hcap hwrap => ?_⟩, fun hr => ?_⟩
  · rw [if_pos hmax] at hchecks
    exact ends_tagen_of_failed hchecks
  · rw [if_neg hmax.not_gt, checkBuffer_capShort _ _ hcap] at hchecks
    exact ends_tagen_of_failed hchecks
  · rw [if_neg hmax.not_gt, checkBuffer_addrWrap _ _ hcap hwrap] at hchecks
    exact ends_tagen_of_failed hchecks
  · obtain ⟨m, hexec, hentry, hframe⟩ := execTagenWith_table s.quantizer hv hr
    refine ⟨m, hexec, fun t k p ht ht' h0 hlt hp => ⟨_, isSample_quantizer s _ hv.1, ?_⟩, hframe⟩
    rw [State.quantizer, ← quantize_emod _ _ _ hv.1]
    exact hentry t k p ht ht' h0 hlt hp

end Sys2Proof.Machine
end

section
/-!
The frequency table (spec/43_frequency_table.md): the checks of a request (R120, R121), the command FOGEN (R122), and
the shape of what it leaves in table memory (R124, R125).
-/

namespace Sys2Proof.Machine

/-! Requests that fail -/

theorem firstFailed_checkFogen (r : Regs) :
    firstFailed (checkFogen r) =
      if r.fftN ≤ 0 then some .fftNonpos
      else if 32767 < r.fftN then some .fftGtI16
      else firstFailed (checkBuffer r (16 * r.fftN)) := by
  rw [checkFogen, checkFO, List.cons_append, List.cons_append, List.nil_append, firstFailed_decide, firstFailed_decide]
  rfl

/-- The checks of FOGEN that `CheckFO` leaves (R121). -/
theorem firstFailed_checkFogen_of_valid {r : Regs} (h : ValidFO r) :
    firstFailed (checkFogen r) = firstFailed (checkBuffer r (16 * r.fftN)) := by
  rw [firstFailed_checkFogen, if_neg h.1.not_ge, if_neg h.2.not_gt]

theorem ends_fogen_of_failed {s : State} {c : Cause} (h : firstFailed (checkFogen s.regs) = some c) :
    Ends .fogen s (statusWord c) := by
  obtain ⟨d, hd, hexec⟩ | ⟨hpass, -⟩ := execFogenWith_cases s.quantizer s
  · rw [h, Option.some.injEq] at hd
    rw [hd]
    exact hexec
  · rw [(checkFogen_ok s.regs).2 hpass] at h
    contradiction

/-- FOGEN ends with `STATUS = 0` only on a request that passes all its checks. -/
theorem valid_of_fogen_completes {s u : State} (h : exec .fogen s = .next u) (hstatus : u.regs.status = 0) :
    ValidFO s.regs ∧ ResourceFO s.regs := by
  obtain ⟨c, hc, -⟩ | ⟨hpass, -⟩ := execFogenWith_cases s.quantizer s
  · have hends := h.symm.trans (ends_fogen_of_failed hc)
    cases hends
    exact absurd hstatus (statusWord_ne_zero (checks_cause _ (checkFogen_cause _) hc))
  · exact hpass

/-! The command FOGEN -/

/-- A valid request with its resources leaves the sample of every index in the two cells of each lane's pair, and every
cell outside the table as it was, whatever the quantizer (R122, R126). -/
theorem execFogenWith_table (q : Quantizer) {s : State} (hv : ValidFO s.regs) (hr : ResourceFO s.regs) :
    ∃ m : TableMemory,
      execFogenWith q s = .next { s with regs := { s.regs with status := 0 }, tm := m } ∧
      (∀ n l : Nat, (n : Int) < s.regs.fftN → l < 16 →
        TableMemory.read s.tmInit (s.regs.d + 2 * (16 * n + l)) m = enc16 (q n s.regs.fftN).cos ∧
        TableMemory.read s.tmInit (s.regs.d + 2 * (16 * n + l) + 1) m = enc16 (q n s.regs.fftN).sin) ∧
      ∀ a : Nat, (a < s.regs.d ∨ (s.regs.d : Int) + 2 * (16 * s.regs.fftN) ≤ a) →
        TableMemory.read s.tmInit a m = TableMemory.read s.tmInit a s.tm := by
  obtain ⟨c, hc, -⟩ | ⟨-, hexec⟩ := execFogenWith_cases q s
  · rw [(checkFogen_ok s.regs).2 ⟨hv, hr⟩] at hc
    contradiction
  rw [State.writeTable_eq _ _ (writesFO_cells hr)] at hexec
  refine ⟨_, hexec, fun n l hn hl => ?_, fun a ha => ?_⟩
  · have hpair : pairFO n l = 16 * n + l := by
      have := pairFO_cast n l (by omega) (by omega)
      omega
    rw [← hpair]
    exact writesFO_read q _ _ s.tmInit s.tm n l ⟨by omega, hn⟩ ⟨by omega, by omega⟩
  · refine TableMemory.read_writeAll_other _ _ _ _ fun w hw heq => ?_
    obtain ⟨hlow, hhigh⟩ := writesFO_range hw
    omega

/-- Settles O38: the first check that fails in each range of the operands, and `execFogenWith_table` with the quantizer
of the platform. -/
theorem fogenWritesTheTable : Obligations.FogenWritesTheTable := by
  refine ⟨(decode_cmd32_eq_ok_iff _ .fogen).2 rfl, fun s => ⟨ends_fftNonpos (c := .fogen) nofun, fun hgt => ?_,
    fun hv => ?_⟩⟩
  · have hcause : firstFailed (checkFogen s.regs) = some .fftGtI16 := by
      rw [firstFailed_checkFogen, if_neg (by omega), if_pos hgt]
    exact ends_fogen_of_failed hcause
  have hchecks := firstFailed_checkFogen_of_valid hv
  refine ⟨fun hcap => ?_, fun hcap hwrap => ?_, fun hr => ?_⟩
  · rw [checkBuffer_capShort _ _ hcap] at hchecks
    exact ends_fogen_of_failed hchecks
  · rw [checkBuffer_addrWrap _ _ hcap hwrap] at hchecks
    exact ends_fogen_of_failed hchecks
  · obtain ⟨m, hexec, hentry, hframe⟩ := execFogenWith_table s.quantizer hv hr
    exact ⟨m, hexec, fun n l hn hl => ⟨_, isSample_quantizer s n hv.1, hentry n l hn hl⟩, hframe⟩

/-! The shape of the table -/

theorem enc16_neg (i : Int) : enc16 (-i) = -enc16 i := BitVec.ofInt_neg

/-- The angle of whole turns is the identity sample, whatever the quantizer of the platform (P-zero and P-period of
R84). -/
theorem quantizer_of_dvd (s : State) {n N : Int} (hN : 0 < N) (h : N ∣ n) : s.quantizer n N = ⟨32767, 0⟩ :=
  quantize_of_four_mul_wrap_eq s.quant (j := 0) hN (by decide)
    (by rw [wrap_eq_emod n N hN, Int.emod_eq_zero_of_dvd h]; simp)

/-- One more turn is the same sample (P-period of R84). -/
theorem quantizer_add_self (s : State) (n : Int) {N : Int} (hN : 0 < N) :
    s.quantizer (n + N) N = s.quantizer n N := by
  rw [State.quantizer, ← quantize_emod _ _ _ hN, Int.add_emod_right, quantize_emod _ _ _ hN]

theorem quantizer_of_default {s : State} (h : s.quant = []) : s.quantizer = phaseQ := by
  rw [State.quantizer, h, quantize_nil]

/-- Half a turn on is the negated sample, where the quantizer is the default or has (P-half) of R84. -/
theorem quantizer_add_half {s : State} {N h : Int} (hN : 0 < N) (hh : 2 * h = N)
    (hprop : s.quant = [] ∨ Quantizer.Half N s.quantizer) (n : Int) :
    s.quantizer (n + h) N = ⟨-(s.quantizer n N).cos, -(s.quantizer n N).sin⟩ := by
  have hhalf : Quantizer.Half N s.quantizer :=
    hprop.elim (fun hnone => quantizer_of_default hnone ▸ phaseQ_half hN) id
  obtain rfl : h = N / 2 := by omega
  exact hhalf (by omega) n

/-- The rest of the turn is the conjugate sample, where the quantizer is the default or has (P-conj) of R84. -/
theorem quantizer_rest_of_turn {s : State} {N n n' : Int} (hN : 0 < N) (hsum : n + n' = N)
    (hprop : s.quant = [] ∨ Quantizer.Conj N s.quantizer) :
    s.quantizer n' N = ⟨(s.quantizer n N).cos, -(s.quantizer n N).sin⟩ := by
  have hconj : Quantizer.Conj N s.quantizer :=
    hprop.elim (fun hnone => quantizer_of_default hnone ▸ phaseQ_conj hN) id
  obtain rfl : n' = -n + N := by omega
  rw [quantizer_add_self s _ hN]
  exact hconj n

/-- Settles O40: the cells of the table are those of `execFogenWith_table`, and the quantizer has the whole turn, the
half turn and the conjugate. -/
theorem fogenLanesAndPeriod : Obligations.FogenLanesAndPeriod := by
  intro s u hexec hstatus cosAt sinAt
  obtain ⟨hv, hr⟩ := valid_of_fogen_completes hexec hstatus
  have hN := hv.1
  obtain ⟨m, hnext, hentry, -⟩ := execFogenWith_table s.quantizer hv hr
  obtain rfl := Host.Outcome.next.inj (hexec.symm.trans hnext)
  have hcos (n l : Nat) (hn : (n : Int) < s.regs.fftN) (hl : l < 16) :
      cosAt n l = enc16 (s.quantizer n s.regs.fftN).cos := (hentry n l hn hl).1
  have hsin (n l : Nat) (hn : (n : Int) < s.regs.fftN) (hl : l < 16) :
      sinAt n l = enc16 (s.quantizer n s.regs.fftN).sin := (hentry n l hn hl).2
  refine ⟨fun n l l' hn hl hl' => ?_, fun l hl => ?_, quantizer_of_dvd s hN (dvd_refl _),
    fun hprop n l h hh hn hl => ?_, fun hprop n n' l hsum hn hn' hl => ?_⟩
  · rw [hcos n l hn hl, hcos n l' hn hl', hsin n l hn hl, hsin n l' hn hl']
    exact ⟨rfl, rfl⟩
  · rw [hcos 0 l hN hl, hsin 0 l hN hl, Nat.cast_zero, quantizer_of_dvd s hN (dvd_zero _)]
    exact ⟨rfl, rfl⟩
  · have hlt : ((n + h : Nat) : Int) < s.regs.fftN := by omega
    rw [hcos _ l hlt hl, hcos n l (by omega) hl, hsin _ l hlt hl, hsin n l (by omega) hl, Nat.cast_add,
      quantizer_add_half hN hh hprop, enc16_neg, enc16_neg]
    exact ⟨rfl, rfl⟩
  · rw [hcos n' l (by omega) hl, hcos n l (by omega) hl, hsin n' l (by omega) hl, hsin n l (by omega) hl,
      quantizer_rest_of_turn hN hsum hprop, enc16_neg]
    exact ⟨rfl, rfl⟩

end Sys2Proof.Machine
end

section
/-!
`NOP` and the host write (spec/44_nop_and_host_access.md R130, R131).
-/

namespace Sys2Proof.Machine

/-- Settles O41: the fixed word of `NOP`, and its meaning, which in every state is `State.succeed` alone. -/
theorem nopClearsStatus : Obligations.NopClearsStatus :=
  ⟨(decode_cmd32_eq_ok_iff _ .nop).2 rfl, fun s =>
    (exec_toInstr .nop s).trans (congrArg Host.Outcome.next (State.succeed_eq (s := s)))⟩

/-! The issue of a command word by a write to `CMD` -/

theorem decode_cmd32_of_ok {w : Word} {c : Command} (h : decodeCommand w = .ok c) :
    decode (.cmd32 w) = .ok c.toInstr := by
  rw [decode, h]

theorem decode_cmd32_of_error {w : Word} {e : DecodeError} (h : decodeCommand w = .error e) :
    decode (.cmd32 w) = .error e := by
  rw [decode, h]

/-- A host write of a legal command word executes its command (R11). -/
theorem exec_wr_cmd_of_decode {w : Word} {i : Instr} (h : decode (.cmd32 w) = .ok i) (s : State) :
    exec (.wr 0x00 w) s = exec i s := by
  cases hd : decodeCommand w with
  | ok c =>
    obtain rfl : c.toInstr = i := Except.ok.inj ((decode_cmd32_of_ok hd).symm.trans h)
    rw [exec_wr_cmd, issueCommand, hd, exec_toInstr]
  | error e => cases (decode_cmd32_of_error hd).symm.trans h

/-- A host write of an illegal command word ends with `BAD_RSV` or with `BAD_OPCODE` (R63). -/
theorem ends_wr_cmd_of_illegal {w : Word} {e : DecodeError} (h : decode (.cmd32 w) = .error e) (s : State) :
    Ends (.wr 0x00 w) s 0x00003104 ∨ Ends (.wr 0x00 w) s 0x00003004 := by
  cases hd : decodeCommand w with
  | ok c => cases (decode_cmd32_of_ok hd).symm.trans h
  | error e' =>
    obtain ⟨-, rfl⟩ | ⟨-, rfl⟩ := decodeCommand_error hd
    · exact .inl (exec_wr_cmd_of_error hd s)
    · exact .inr (exec_wr_cmd_of_error hd s)

/-! The write of any other register -/

/-- An aligned host write that is not to `CMD` is `Regs.write`. -/
theorem exec_wr_register {off : Offset} (halign : off.toNat % 4 = 0) (hcmd : off ≠ 0) (v : Word) (s : State) :
    exec (.wr off v) s = .next { s with regs := s.regs.write (regNumber off) v } := by
  have haligned : Offset.aligned off = true := beq_iff_eq.2 halign
  rw [exec, execWr, haligned, if_neg Bool.noConfusion, if_neg hcmd]

/-- `STATUS`, the result registers and the reserved offsets ignore a host write (R23, R24). -/
theorem exec_wr_ignored {off : Offset} (halign : off.toNat % 4 = 0) (hoff : off = 0x04 ∨ 0x24 ≤ off.toNat)
    (v : Word) (s : State) : exec (.wr off v) s = .next s := by
  have hrange : off.toNat = 4 ∨ 0x24 ≤ off.toNat := hoff.imp_left (congrArg BitVec.toNat)
  have hcmd : off ≠ 0 := by
    rintro rfl
    revert hrange
    decide
  have hnumber : regNumber off < 2 ∨ 8 < regNumber off := by
    rw [regNumber]
    omega
  rw [exec_wr_register halign hcmd, Regs.write_ignored _ _ _ hnumber]

/-- Settles O42: a write to `CMD` is the issue of its word, and any other is the `Regs.write` of its register number. -/
theorem wrDoesItsCase : Obligations.WrDoesItsCase := fun s v =>
  ⟨fun _ hok => exec_wr_cmd_of_decode hok s, fun _ herr => ends_wr_cmd_of_illegal herr s,
    exec_wr_register (off := 0x08) rfl (by decide) v s, exec_wr_register (off := 0x0C) rfl (by decide) v s,
    exec_wr_register (off := 0x10) rfl (by decide) v s, exec_wr_register (off := 0x14) rfl (by decide) v s,
    exec_wr_register (off := 0x18) rfl (by decide) v s, exec_wr_register (off := 0x1C) rfl (by decide) v s,
    exec_wr_register (off := 0x20) rfl (by decide) v s,
    fun _ halign hoff => exec_wr_ignored halign hoff v s⟩

end Sys2Proof.Machine
end

section
/-!
The error return (spec/60_exceptions.md R150): a command that ends with a non-zero `STATUS` has had no other effect.
-/

namespace Sys2Proof.Machine

/-- The causes of the classes INVALID_CONFIG and RESOURCE are neither success nor the reserved INTERNAL (R142, R143). -/
theorem Cause.ofCommand.reportable {c : Cause} (h : c.ofCommand) : c ≠ .none ∧ c ≠ .idxRange := by
  constructor <;> (rintro rfl; simp [Cause.ofCommand, Cause.code] at h)

/-- A command that leaves a non-zero `STATUS` is the error return of one of its causes (R142, R150). -/
theorem runCommand_failed {c : Command} {s t : State} (h : runCommand c s = .next t) (hstatus : t.regs.status ≠ 0) :
    ∃ e : Cause, e.ofCommand ∧ t = s.raise e := by
  obtain ⟨r, ws, heffect, hrun⟩ := runCommand_effect c s.regs s.maxFft s.quant
  obtain rfl := Host.Outcome.next.inj ((hrun s rfl rfl rfl).symm.trans h)
  obtain hsucceeds | ⟨e, he, rfl, rfl⟩ := heffect.status
  · exact absurd hsucceeds hstatus
  · exact ⟨e, he, rfl⟩

/-- The issue of any word that leaves a non-zero `STATUS` is an error return, and never that of the reserved cause. -/
theorem issueCommand_failed {w : Word} {s t : State} (h : issueCommand w s = .next t) (hstatus : t.regs.status ≠ 0) :
    ∃ e : Cause, e ≠ .none ∧ e ≠ .idxRange ∧ t = s.raise e := by
  obtain ⟨c, -, hrun⟩ | hrsv | hopc := issueCommand_cases w s
  · obtain ⟨e, he, rfl⟩ := runCommand_failed (hrun.symm.trans h) hstatus
    exact ⟨e, he.reportable.1, he.reportable.2, rfl⟩
  · exact ⟨.badRsv, nofun, nofun, Host.Outcome.next.inj (h.symm.trans hrsv)⟩
  · exact ⟨.badOpcode, nofun, nofun, Host.Outcome.next.inj (h.symm.trans hopc)⟩

/-- Settles O46: a write to `CMD` issues its word, and `State.raise` is the one register update of R150. -/
theorem failedCommandOnlySetsStatus : Obligations.FailedCommandOnlySetsStatus := by
  intro w s t h hstatus
  obtain ⟨e, hnone, hidx, rfl⟩ := issueCommand_failed ((exec_wr_cmd w s).symm.trans h) hstatus
  exact ⟨e, hnone, hidx, State.raise_eq s e⟩

end Sys2Proof.Machine
end

section
/-!
Decoding and encoding (spec/30_encoding.md): they undo one another (R61, R65), and the words the spec prints.
-/

namespace Sys2Proof.Machine

/-- An aligned read is the transaction of its record. -/
theorem decodeRecord_read (off : Offset) (h : Offset.aligned off = true) :
    decodeRecord (encodeRecord false off 0) = .ok (.rd off) := by
  rw [decodeRecord, recordOff_encodeRecord, recordWe_encodeRecord, recordData_encodeRecord, h]; rfl

theorem decode_encode_toInstr (c : Command) : decode (encode c.toInstr) = .ok c.toInstr := by
  rw [encode_toInstr, decode_cmd32_eq_ok_iff]

/-- Settles O1: a command is got back from its word, a transaction from the three fields of its record. -/
theorem decodeOfEncode : Obligations.DecodeOfEncode := by
  intro i hwf
  cases i with
  | nop => exact decode_encode_toInstr .nop
  | pq => exact decode_encode_toInstr .pq
  | scbin => exact decode_encode_toInstr .scbin
  | talkup => exact decode_encode_toInstr .talkup
  | tagen => exact decode_encode_toInstr .tagen
  | fogen => exact decode_encode_toInstr .fogen
  | wr off data => exact decodeRecord_write off data hwf
  | rd off => exact decodeRecord_read off hwf

/-- A command word that decodes to an instruction is the word of that command. -/
theorem exists_command_of_decode {w : Word} {i : Instr} (h : decode (.cmd32 w) = .ok i) :
    ∃ c : Command, i = c.toInstr ∧ w = encodeCommand c := by
  cases hd : decodeCommand w with
  | ok c => exact ⟨c, Except.ok.inj (h.symm.trans (decode_cmd32_of_ok hd)), eq_encodeCommand hd⟩
  | error e => cases (decode_cmd32_of_error hd).symm.trans h

theorem encode_of_decodeRecord {r : Record} {i : Instr} (h : decodeRecord r = .ok i) : encode i = .bus41 r := by
  obtain ⟨-, hd⟩ | ⟨-, ⟨hwe, hd⟩ | ⟨-, -, hd⟩ | ⟨hwe, hdata, hd⟩⟩ := decodeRecord_cases r <;> cases hd.symm.trans h
  · exact congrArg BusWord.bus41 (hwe ▸ encodeRecord_fields r)
  · exact congrArg BusWord.bus41 (hwe ▸ hdata ▸ encodeRecord_fields r)

/-- Settles O2: a word that decodes to a command is the command's word, and a record is its three fields. -/
theorem encodeOfDecode : Obligations.EncodeOfDecode := by
  intro w i h
  cases w with
  | cmd32 w =>
    obtain ⟨c, rfl, rfl⟩ := exists_command_of_decode h
    exact encode_toInstr c
  | bus41 r => exact encode_of_decodeRecord h

/-- Settles O4: the opcode map for the command words, and the evaluation of `decodeRecord` for the three records. -/
theorem specWordsDecode : Obligations.SpecWordsDecode :=
  ⟨(decode_cmd32_eq_ok_iff _ .nop).2 rfl, (decode_cmd32_eq_ok_iff _ .pq).2 rfl,
    (decode_cmd32_eq_ok_iff _ .scbin).2 rfl, (decode_cmd32_eq_ok_iff _ .talkup).2 rfl,
    (decode_cmd32_eq_ok_iff _ .tagen).2 rfl, (decode_cmd32_eq_ok_iff _ .fogen).2 rfl, by decide, by decide, by decide⟩

end Sys2Proof.Machine
end

section
/-!
Host actions and steps (spec/10_state.md R25, R31; 60_exceptions.md R157, R160): which state an action finds, and what
each kind of action makes of it.
-/

namespace Sys2Proof.Machine

/-! The state an action finds -/

/-- The platform can address any of its blocks (R31). -/
theorem State.exists_select {s : State} {j : Nat} {r : Regs} (h : s.instances[j]? = some r) :
    ∃ t, s.select j = some t ∧ t.regs = r := by
  cases hsel : s.select j with
  | none =>
    rw [List.getElem?_eq_none (State.select_eq_none.1 hsel)] at h
    contradiction
  | some t =>
    obtain ⟨hall, hnum, -, -⟩ := State.select_eq_some hsel
    refine ⟨t, rfl, Option.some.inj ?_⟩
    rw [← State.instances_selected t, hnum, hall, h]

/-! One step, by the kind of action -/

section

variable {s t : State} {j : Nat} {act : HostAct} {rest : List HostStep}

theorem step_of_bus_nil (h : s.bus = []) : step s = .next s := by
  rw [step, fetch, h]

theorem step_of_select_none (hbus : s.bus = ⟨j, act⟩ :: rest)
    (hsel : State.select j { s with bus := rest } = none) : step s = .refused .noSuchInstance := by
  simp only [step, fetch, hbus, hsel]

theorem step_reset (hbus : s.bus = ⟨j, .reset⟩ :: rest)
    (hsel : State.select j { s with bus := rest } = some t) : step s = .next t.resetBlock := by
  simp only [step, fetch, hbus, hsel, actOn]

theorem step_send {w : BusWord} {i : Instr} (hbus : s.bus = ⟨j, .send w⟩ :: rest)
    (hsel : State.select j { s with bus := rest } = some t) (hdec : decode w = .ok i) : step s = exec i t := by
  simp only [step, fetch, hbus, hsel, actOn, hdec]

theorem step_send_undecoded {w : BusWord} {e : DecodeError} (hbus : s.bus = ⟨j, .send w⟩ :: rest)
    (hsel : State.select j { s with bus := rest } = some t) (hdec : decode w = .error e) :
    step s = answerUndecoded e t := by
  simp only [step, fetch, hbus, hsel, actOn, hdec]

end

/-- Settles O8: the step's branch for a word that decodes. -/
theorem stepRunsDecodedInstruction : Obligations.StepRunsDecodedInstruction := fun _ _ _ _ _ _ => step_send

/-- Settles O11: the step's branch for an empty list of actions. -/
theorem idleStepKeepsEverything : Obligations.IdleStepKeepsEverything := fun _ => step_of_bus_nil

/-- Taking off an action on the block now addressed gives the state the action is to be performed on. -/
theorem select_rest_of_selected (s : State) (rest : List HostStep) :
    State.select s.selected { s with bus := rest } = some { s with bus := rest } :=
  State.select_selected { s with bus := rest }

theorem decode_of_decodeTableWord {nbits w : Nat} {i : Instr} (h : decodeTableWord nbits w = some i) :
    decode (tableWord nbits w) = .ok i := by
  unfold decodeTableWord at h
  split at h
  · next hd => rw [hd, (Option.ite_some_none_eq_some.1 h).2]
  · contradiction

/-- Settles O9: the action placed first addresses the block addressed already, so it is taken off and leaves the state
as it was. -/
theorem placedWordRuns : Obligations.PlacedWordRuns := fun s _ _ _ h =>
  step_send rfl (select_rest_of_selected s s.bus) (decode_of_decodeTableWord h)

/-- Settles O10: both are the issue of the word. -/
theorem commandWordIsCmdWrite : Obligations.CommandWordIsCmdWrite := by
  refine ⟨fun s t j w rest hbus hsel => ?_, fun s c => exec_wr_cmd_of_decode ((decode_cmd32_eq_ok_iff _ c).2 rfl) s⟩
  cases hd : decodeCommand w with
  | ok c =>
    have hdec := decode_cmd32_of_ok hd
    rw [step_send hbus hsel hdec, exec_wr_cmd_of_decode hdec]
  | error e => rw [step_send_undecoded hbus hsel (decode_cmd32_of_error hd), exec_wr_cmd_of_error hd]

/-- Settles O12: the state that `State.exists_select` gives, and the step's branch for each kind of action. -/
theorem actionReachesItsInstance : Obligations.ActionReachesItsInstance := by
  refine fun s j act rest hbus => ⟨fun r hr => ?_, fun hout => ?_⟩
  · obtain ⟨t, hsel, hregs⟩ := State.exists_select (s := { s with bus := rest }) hr
    obtain ⟨hall, hnum, -, hrest⟩ := State.select_eq_some hsel
    refine ⟨t, hsel, hregs, hnum, hall, ?_, ?_, ?_, ?_, ?_, ?_, fun hact => ?_, fun w i hact hdec => ?_,
      fun w e hact hdec => ?_⟩
    iterate 6 rw [hrest]
    · exact step_reset (hact ▸ hbus) hsel
    · exact step_send (hact ▸ hbus) hsel hdec
    · exact step_send_undecoded (hact ▸ hbus) hsel hdec
  · exact step_of_select_none hbus (State.select_eq_none.2 hout)

/-- Settles O14: the reset's branch of the step; the state it is performed on differs from the first in the address and
in the list of actions only. -/
theorem resetClearsRegistersKeepsMemory : Obligations.ResetClearsRegistersKeepsMemory := by
  intro s t j rest hbus hsel
  obtain ⟨-, -, -, hrest⟩ := State.select_eq_some hsel
  refine ⟨_, step_reset hbus hsel, Regs.reset_read, ?_, rfl, rfl, ?_, ?_, ?_, ?_, ?_⟩
  all_goals rw [hrest]; rfl

/-! What is no transaction -/

theorem exec_unaligned {off : Offset} (h : off.toNat % 4 ≠ 0) (data : Word) (s : State) :
    exec (.wr off data) s = .refused .unalignedAccess ∧ exec (.rd off) s = .refused .unalignedAccess := by
  have hal : Offset.aligned off = false := beq_eq_false_iff_ne.2 h
  exact ⟨if_pos hal, if_pos hal⟩

theorem decodeRecord_unaligned {r : Record} (h : (recordOff r).toNat % 4 ≠ 0) :
    decodeRecord r = .error .unalignedOffset := if_pos (beq_eq_false_iff_ne.2 h)

theorem decodeRecord_readWithData {r : Record} (hal : (recordOff r).toNat % 4 = 0) (hwe : recordWe r = false)
    (hdata : recordData r ≠ 0) : decodeRecord r = .error .readWithData := by
  have hal : Offset.aligned (recordOff r) = true := beq_iff_eq.2 hal
  rw [decodeRecord, hal, if_neg Bool.noConfusion, hwe, if_neg Bool.noConfusion, if_pos hdata]

/-- Settles O6: the refusal in execution, and that of the decoder, which is the answer of the step. -/
theorem noTransactionIsRefused : Obligations.NoTransactionIsRefused := by
  refine ⟨fun s off data h => exec_unaligned h data s, fun s r rest hbus => ⟨fun h => ?_, fun hal hwe hdata => ?_⟩⟩
  · exact step_send_undecoded hbus (select_rest_of_selected s rest) (decodeRecord_unaligned h)
  · exact step_send_undecoded hbus (select_rest_of_selected s rest) (decodeRecord_readWithData hal hwe hdata)

end Sys2Proof.Machine
end

section
/-!
The platform after reset with its open parameters (spec/00_scope.md R6, 70_reset_and_hazards.md R170), and the invariant
of registers and table memory that every step keeps.
-/

namespace Sys2Proof.Machine

/-! The platform after reset -/

theorem State.powerOn_instances {p : Params} (h : 1 ≤ p.nInst) :
    (State.powerOn p).instances = List.replicate p.nInst Regs.reset := by
  obtain ⟨n, hn⟩ := Nat.exists_eq_add_of_le' h
  simp [State.instances, State.powerOn, hn, List.replicate_succ]

theorem Regs.reset_inv : Regs.reset.Inv where
  status := ⟨.none, nofun, rfl⟩
  cos := by decide
  sin := by decide
  idx := rfl

theorem State.powerOn_inv {p : Params} (h : p.Legal) : (State.powerOn p).Inv where
  regs r hr := by
    rw [State.powerOn_instances h.2] at hr
    exact List.eq_of_mem_replicate hr ▸ Regs.reset_inv
  tm := ⟨List.Pairwise.nil, nofun⟩
  cells := nofun
  maxFft := h.1

/-- Settles O16: the registers are `N_INST` copies of those after reset, and no cell is listed as changed. -/
theorem powerOnTakesTheParameters : Obligations.PowerOnTakesTheParameters := by
  intro p h
  have hall := State.powerOn_instances h.2
  refine ⟨State.powerOn_inv h, by rw [hall, List.length_replicate], fun r hr => ?_, rfl, rfl, fun _ => rfl, rfl, rfl⟩
  rw [hall] at hr
  rw [List.eq_of_mem_replicate hr]
  exact Regs.reset_read

theorem Params.suggested_legal : Params.suggested.Legal := ⟨⟨30, le_rfl, rfl⟩, le_rfl⟩

/-- Settles O19: the suggested parameters are legal. -/
theorem invariantHoldsAtReset : Obligations.InvariantHoldsAtReset := State.powerOn_inv Params.suggested_legal

/-- Settles O17: the fields of `Params.suggested`. -/
theorem resetHasTheSuggestedParameters : Obligations.ResetHasTheSuggestedParameters :=
  ⟨rfl, fun _ _ => rfl, rfl, fun _ => rfl⟩

/-- The first `n` cells, each with what `f` gives it. -/
def listedCells (f : Nat → Cell) (n : Nat) : List (Nat × Cell) := (List.range n).map fun a => (a, f a)

theorem cellListed_listedCells (f : Nat → Cell) {a n : Nat} (h : a < n) :
    cellListed a (listedCells f n) = some (f a) := by
  have hsorted : ((listedCells f n).map (·.1)).Pairwise (· < ·) := by
    have hrange : (listedCells f n).map (·.1) = List.range n := by simp [listedCells, Function.comp_def]
    exact hrange ▸ List.pairwise_lt_range
  exact cellListed_of_mem hsorted (x := (a, f a)) (List.mem_map_of_mem (List.mem_range.2 h))

/-- Settles O18: the value of the parameter that lists every cell. -/
theorem tmInitMayBeAnything : Obligations.TmInitMayBeAnything := fun f =>
  ⟨⟨0, listedCells f (2 ^ 32)⟩, fun a ha => by rw [TableInit.cell, cellListed_listedCells f ha, Option.getD_some]⟩

/-! The invariant -/

theorem legalStatus_statusWord {c : Cause} (h : c ≠ .idxRange) : legalStatus (statusWord c) := ⟨c, h, rfl⟩

theorem Regs.Inv.withStatus {r : Regs} (h : r.Inv) {w : Word} (hw : legalStatus w) :
    ({ r with status := w } : Regs).Inv :=
  ⟨hw, h.cos, h.sin, h.idx⟩

/-- The host writes no register that the invariant speaks of (R131). -/
theorem Regs.Inv.write {r : Regs} (h : r.Inv) (i : Nat) (v : Word) : (r.write i v).Inv := by
  obtain ⟨hstatus, hcos, hsin, hidx⟩ := Regs.write_readOnly i v r
  exact ⟨hstatus ▸ h.status, hcos ▸ h.cos, hsin ▸ h.sin, hidx ▸ h.idx⟩

theorem Effect.inv {r0 r : Regs} {ws : List (Nat × Cell)} (h : Effect r0 r ws) (h0 : r0.Inv) : r.Inv := by
  obtain hzero | ⟨c, hc, rfl, -⟩ := h.status
  · have hsample : (-32767 ≤ r.resCos.toInt ∧ r.resCos.toInt ≤ 32767) ∧
        (-32767 ≤ r.resSin.toInt ∧ r.resSin.toInt ≤ 32767) := by
      obtain ⟨hcos, hsin⟩ | hrange := h.sample
      · rw [hcos, hsin]
        exact ⟨h0.cos, h0.sin⟩
      · exact hrange
    have hidx : r.resIdx.getLsbD 31 = false := h.index.elim (fun hkept => hkept ▸ h0.idx) id
    exact ⟨⟨.none, nofun, hzero⟩, hsample.1, hsample.2, hidx⟩
  · exact h0.withStatus (legalStatus_statusWord hc.reportable.2)

namespace State.Inv

variable {s t : State}

theorem regs_selected (h : s.Inv) : s.regs.Inv := h.regs _ (List.mem_append_right _ List.mem_cons_self)

/-- The invariant speaks neither of the address nor of what the host asks and has got. -/
theorem of_same_platform (h : s.Inv) (hall : t.instances = s.instances) (htm : t.tm = s.tm)
    (hinit : t.tmInit = s.tmInit) (hmax : t.maxFft = s.maxFft) : t.Inv where
  regs := hall ▸ h.regs
  tm := by
    rw [hinit, htm]
    exact h.tm
  cells := htm ▸ h.cells
  maxFft := hmax ▸ h.maxFft

theorem withRegs (h : s.Inv) {r : Regs} (hr : r.Inv) : ({ s with regs := r } : State).Inv where
  regs x hx := by
    obtain hx | hx := List.mem_append.1 hx
    · exact h.regs x (List.mem_append_left _ hx)
    obtain rfl | hx := List.mem_cons.1 hx
    · exact hr
    · exact h.regs x (List.mem_append_right _ (List.mem_cons_of_mem _ hx))
  tm := h.tm
  cells := h.cells
  maxFft := h.maxFft

theorem writeAll (h : s.Inv) {ws : List (Nat × Cell)} (hws : ∀ w ∈ ws, w.1 < Config.tmCells ∧ w.2 ≠ 0x8000) :
    ({ s with tm := TableMemory.writeAll s.tmInit ws s.tm } : State).Inv where
  regs := h.regs
  tm := TableMemory.writeAll_wf _ _ _ (fun w hw => (hws w hw).1) h.tm
  cells x hx := (TableMemory.mem_writeAll hx).elim (fun hw => (hws x hw).2) (h.cells x)
  maxFft := h.maxFft

theorem raise (h : s.Inv) {c : Cause} (hc : c ≠ .idxRange) : (s.raise c).Inv :=
  h.withRegs (h.regs_selected.withStatus (legalStatus_statusWord hc))

theorem select (h : s.Inv) {j : Nat} (hsel : s.select j = some t) : t.Inv := by
  obtain ⟨hall, -, -, hrest⟩ := State.select_eq_some hsel
  refine h.of_same_platform hall ?_ ?_ ?_ <;> rw [hrest]

theorem runCommand (h : s.Inv) {c : Command} (hrun : runCommand c s = .next t) : t.Inv := by
  obtain ⟨r, ws, heffect, hnext⟩ := runCommand_effect c s.regs s.maxFft s.quant
  obtain rfl := Host.Outcome.next.inj ((hnext s rfl rfl rfl).symm.trans hrun)
  have hws : ∀ w ∈ ws, w.1 < Config.tmCells ∧ w.2 ≠ 0x8000 := fun w hw => (heffect.cells w hw).2.2
  exact (h.writeAll hws).withRegs (heffect.inv h.regs_selected)

theorem exec (h : s.Inv) {i : Instr} (hexec : exec i s = .next t) : t.Inv := by
  obtain ⟨c, hi⟩ | (hi | hi) | ⟨off, data, -, -, -, hi⟩ | ⟨off, -, -, hi⟩ | ⟨-, hi⟩ := exec_cases i s <;>
    rw [hi] at hexec
  · exact h.runCommand hexec
  · cases hexec
    exact h.raise nofun
  · cases hexec
    exact h.raise nofun
  · cases hexec
    exact h.withRegs (h.regs_selected.write _ _)
  · cases hexec
    exact h.of_same_platform rfl rfl rfl rfl
  · contradiction

theorem answerUndecoded (h : s.Inv) {e : DecodeError} (hans : answerUndecoded e s = .next t) : t.Inv := by
  cases e with
  | badRsv => cases hans; exact h.raise nofun
  | badOpcode => cases hans; exact h.raise nofun
  | unalignedOffset => contradiction
  | readWithData => contradiction

end State.Inv

/-- Settles O20: the state that the oldest action finds has the invariant, and every kind of action keeps it. -/
theorem stepKeepsInvariant : Obligations.StepKeepsInvariant := by
  intro s t hs hstep
  obtain ⟨-, hidle⟩ | ⟨h, rest, -, ⟨-, href⟩ | ⟨u, hsel, hact⟩⟩ := step_cases s
  · cases hidle.symm.trans hstep
    exact hs
  · cases href.symm.trans hstep
  have hu : u.Inv := (hs.of_same_platform (t := { s with bus := rest }) rfl rfl rfl rfl).select hsel
  obtain ⟨-, hreset⟩ | ⟨w, i, -, -, hexec⟩ | ⟨w, e, -, -, hans⟩ := hact
  · cases hreset.symm.trans hstep
    exact hu.withRegs Regs.reset_inv
  · exact hu.exec (hexec.symm.trans hstep)
  · exact hu.answerUndecoded (hans.symm.trans hstep)

end Sys2Proof.Machine
end

section
/-!
The integer functions of spec/00_scope.md R9, and the quantizers a platform can have (R6, spec/40_quantizer.md R81, R82,
R84).
-/

namespace Sys2Proof.Machine

/-! The integer functions of R9 -/

theorem rem_eq_tmod (x N : Int) : rem x N = Int.tmod x N := by
  have h := Int.mul_tdiv_add_tmod x N
  rw [rem]
  omega

/-- `wrap` picks the one representative in `[0, N)`. -/
theorem eq_wrap_of_dvd {x N r : Int} (h0 : 0 ≤ r) (hlt : r < N) (h : N ∣ x - r) : r = wrap x N := by
  rw [wrap_eq_emod x N (h0.trans_lt hlt), Int.emod_eq_emod_iff_emod_sub_eq_zero.2 (Int.emod_eq_zero_of_dvd h),
    Int.emod_eq_of_lt h0 hlt]

theorem dvd_sub_wrap (x : Int) {N : Int} (hN : 0 < N) : N ∣ x - wrap x N := by
  rw [wrap_eq_emod x N hN]
  exact Int.dvd_self_sub_emod

/-- Settles O21: `wrap` is the floor modulo, `rem` the remainder of the truncated quotient, and `isPow2_iff`. -/
theorem wrapIsFloorModulo : Obligations.WrapIsFloorModulo := by
  refine ⟨fun x N hN => ⟨wrap_nonneg x N hN, wrap_lt x N hN, dvd_sub_wrap x hN, fun r => eq_wrap_of_dvd⟩,
    fun x N hN => ?_, isPow2_iff⟩
  have hquot : x - rem x N = N * Int.tdiv x N := by rw [rem, sub_sub_cancel]
  refine ⟨⟨_, hquot⟩, ?_, fun hx => ?_, fun hx => ?_⟩ <;> rw [rem_eq_tmod]
  · exact abs_lt.2 ⟨Int.lt_tmod_of_pos x hN, Int.tmod_lt_of_pos x hN⟩
  · exact Int.tmod_nonneg N hx
  · have h := Int.tmod_nonneg N (neg_nonneg.2 hx)
    rw [Int.neg_tmod] at h
    exact nonpos_of_neg_nonneg h

/-! The default quantizer -/

/-- Settles O22: the evaluator computes the function of R8. -/
theorem quantizerIsExactPhase : Obligations.QuantizerIsExactPhase := fun n _ hN => phaseQ_eq_exactPhase n hN

/-- An angle that is a multiple of a twelfth of a half turn. -/
theorem phaseQ_of_twelve_mul_wrap_eq {n N : ℤ} (hN : 0 < N) (j : ℤ) {x : ℝ} (hx : x = j * (Real.pi / 6))
    (h : 12 * wrap n N = j * N) : phaseQ n N = angleSample x := by
  have hN' : (N : ℝ) ≠ 0 := by exact_mod_cast hN.ne'
  have h' : 12 * (wrap n N : ℝ) = j * N := by exact_mod_cast h
  have hangle : angle (wrap n N) N = x := by
    rw [angle, div_eq_iff hN', hx]
    linear_combination Real.pi / 6 * h'
  rw [← quantize_nil, ← quantize_wrap [] n hN, quantize_nil, phaseQ_eq_exactPhase _ hN, exactPhase_eq, hangle]

theorem angleSample_pi_sub (x : ℝ) : angleSample (Real.pi - x) = ⟨-(angleSample x).cos, (angleSample x).sin⟩ := by
  simp only [angleSample, Real.cos_pi_sub, Real.sin_pi_sub, q15R_neg]

theorem angleSample_add_pi (x : ℝ) : angleSample (x + Real.pi) = ⟨-(angleSample x).cos, -(angleSample x).sin⟩ := by
  simp only [angleSample, Real.cos_add_pi, Real.sin_add_pi, q15R_neg]

theorem angleSample_two_pi_sub (x : ℝ) :
    angleSample (2 * Real.pi - x) = ⟨(angleSample x).cos, -(angleSample x).sin⟩ := by
  simp only [angleSample, Real.cos_two_pi_sub, Real.sin_two_pi_sub, q15R_neg]

/-- The tie of R82. -/
theorem q15R_half : q15R (1 / 2) = 16384 := by rw [q15R_nonneg (by norm_num), roundReal_half]

theorem angleSample_pi_div_six_sin : (angleSample (Real.pi / 6)).sin = 16384 := by
  rw [angleSample, Real.sin_pi_div_six, q15R_half]

theorem angleSample_pi_div_three_cos : (angleSample (Real.pi / 3)).cos = 16384 := by
  rw [angleSample, Real.cos_pi_div_three, q15R_half]

/-- Settles O26: the angles are those of `pi/3` and `pi/6` in each quadrant. -/
theorem quantizerTies : Obligations.QuantizerTies := by
  intro n N hN
  rw [quantize_nil]
  refine ⟨fun h => ?_, fun h => ?_, fun h => ?_, fun h => ?_⟩ <;> obtain h | h := h
  · rw [phaseQ_of_twelve_mul_wrap_eq hN 2 (x := Real.pi / 3) (by push_cast; ring) (by omega),
      angleSample_pi_div_three_cos]
  · rw [phaseQ_of_twelve_mul_wrap_eq hN 10 (x := 2 * Real.pi - Real.pi / 3) (by push_cast; ring) (by omega),
      angleSample_two_pi_sub, angleSample_pi_div_three_cos]
  · rw [phaseQ_of_twelve_mul_wrap_eq hN 4 (x := Real.pi - Real.pi / 3) (by push_cast; ring) (by omega),
      angleSample_pi_sub, angleSample_pi_div_three_cos]
  · rw [phaseQ_of_twelve_mul_wrap_eq hN 8 (x := Real.pi / 3 + Real.pi) (by push_cast; ring) (by omega),
      angleSample_add_pi, angleSample_pi_div_three_cos]
  · rw [phaseQ_of_twelve_mul_wrap_eq hN 1 (x := Real.pi / 6) (by push_cast; ring) (by omega),
      angleSample_pi_div_six_sin]
  · rw [phaseQ_of_twelve_mul_wrap_eq hN 5 (x := Real.pi - Real.pi / 6) (by push_cast; ring) (by omega),
      angleSample_pi_sub, angleSample_pi_div_six_sin]
  · rw [phaseQ_of_twelve_mul_wrap_eq hN 7 (x := Real.pi / 6 + Real.pi) (by push_cast; ring) (by omega),
      angleSample_add_pi, angleSample_pi_div_six_sin]
  · rw [phaseQ_of_twelve_mul_wrap_eq hN 11 (x := 2 * Real.pi - Real.pi / 6) (by push_cast; ring) (by omega),
      angleSample_two_pi_sub, angleSample_pi_div_six_sin]

/-! Every quantizer of a platform is admissible -/

/-- Whole turns do not move the cosine and the sine of an angle. -/
theorem cos_sin_angle_wrap (n : ℤ) {N : ℤ} (hN : 0 < N) :
    Real.cos (angle (wrap n N) N) = Real.cos (angle n N) ∧ Real.sin (angle (wrap n N) N) = Real.sin (angle n N) := by
  have hN' : (N : ℝ) ≠ 0 := by exact_mod_cast hN.ne'
  obtain ⟨k, hk⟩ := dvd_sub_wrap n hN
  have hk' : (n : ℝ) = wrap n N + N * k := by
    have h : n = wrap n N + N * k := by omega
    exact_mod_cast h
  have hangle : angle n N = angle (wrap n N) N + k * (2 * Real.pi) := by
    rw [angle, angle, hk']
    field_simp
  rw [hangle, Real.cos_add_int_mul_two_pi, Real.sin_add_int_mul_two_pi]
  exact ⟨rfl, rfl⟩

/-- (P-near) of R84, of one sample of the angle `n/N`. -/
def Sample.Near (e : ℝ) (n N : ℤ) (p : Sample) : Prop :=
  |(p.cos : ℝ) - 32767 * Real.cos (angle n N)| ≤ 1 / 2 + e ∧ |(p.sin : ℝ) - 32767 * Real.sin (angle n N)| ≤ 1 / 2 + e

theorem phaseQ_near {e : ℝ} (he : 0 ≤ e) (n : ℤ) {N : ℤ} (hN : 0 < N) : Sample.Near e n N (phaseQ n N) := by
  have hcos := phaseQ_admissible.nearCos n N hN
  have hsin := phaseQ_admissible.nearSin n N hN
  exact ⟨by linarith, by linarith⟩

section

variable {l : List QuantEntry} {e : ℝ}

/-- A quantizer lies near where its entries do. -/
theorem quantize_near (he : 0 ≤ e) (hl : ∀ x ∈ l, 0 < x.den → Sample.Near e x.num x.den x.sample) (n : ℤ) {N : ℤ}
    (hN : 0 < N) : Sample.Near e n N (quantize l n N) := by
  obtain ⟨x, hx, htaken, heq⟩ | heq := quantize_cases l n N <;> rw [heq]
  · obtain ⟨-, -, hnum, rfl⟩ := QuantEntry.taken htaken
    obtain ⟨hcos, hsin⟩ := cos_sin_angle_wrap n hN
    rw [Sample.Near, ← hcos, ← hsin, ← hnum]
    exact hl x hx hN
  · exact phaseQ_near he n hN

theorem quantize_admissible (he : 0 ≤ e) (hl : ∀ x ∈ l, 0 < x.den → Sample.Near e x.num x.den x.sample) :
    Quantizer.Admissible e (quantize l) where
  range n N hN := by
    obtain ⟨⟨hc, hc'⟩, hs, hs'⟩ := quantize_range l n N hN
    exact ⟨hc, hc', hs, hs'⟩
  period n N hN := (quantize_wrap l n hN).symm
  zero N hN := quantize_of_four_mul_wrap_eq l (j := 0) hN (by decide) (by rw [wrap_eq_emod 0 N hN]; simp)
  quadrant1 n N hN h := quantize_of_four_mul_wrap_eq l (j := 1) hN (by decide) (by simpa using h)
  quadrant2 n N hN h := quantize_of_four_mul_wrap_eq l (j := 2) hN (by decide) h
  quadrant3 n N hN h := quantize_of_four_mul_wrap_eq l (j := 3) hN (by decide) h
  nearCos n N hN := (quantize_near he hl n hN).1
  nearSin n N hN := (quantize_near he hl n hN).2

end

/-- Settles O24: (P-near) is that of the entry taken, or of `PhaseQ`; the other properties are those of every list. -/
theorem everyListedQuantizerIsAdmissible : Obligations.EveryListedQuantizerIsAdmissible := fun _ _ he hl =>
  quantize_admissible he hl

/-! Every admissible quantizer is that of a platform -/

/-- The samples of `q` at the denominators below `D`, as entries. -/
def quantEntries (q : Quantizer) (D : Nat) : List QuantEntry :=
  (List.range D).flatMap fun (N : Nat) => (List.range N).map fun (n : Nat) => ⟨n, N, q n N⟩

theorem mem_quantEntries {q : Quantizer} {D : Nat} {x : QuantEntry} :
    x ∈ quantEntries q D ↔ ∃ N n : Nat, N < D ∧ n < N ∧ x = ⟨n, N, q n N⟩ := by
  simp only [quantEntries, List.mem_flatMap, List.mem_range, List.mem_map]
  constructor
  · rintro ⟨N, hN, n, hn, rfl⟩
    exact ⟨N, n, hN, hn, rfl⟩
  · rintro ⟨N, n, hN, hn, rfl⟩
    exact ⟨N, hN, n, hn, rfl⟩

/-- R84 fixes the sample at the multiples of a quarter turn. -/
theorem Quantizer.Admissible.eq_of_quarter {e : ℝ} {q : Quantizer} (h : Quantizer.Admissible e q) {n N : ℤ}
    (hN : 0 < N) (hquarter : 4 * wrap n N % N = 0) : q n N = phaseQ n N := by
  obtain ⟨j, hj⟩ := Int.dvd_of_emod_eq_zero hquarter
  rw [mul_comm N] at hj
  have h0 := wrap_nonneg n N hN
  have hlt := wrap_lt n N hN
  have hj0 : 0 ≤ j := nonneg_of_mul_nonneg_left (by omega) hN
  have hj4 : j < 4 := lt_of_mul_lt_mul_right (by omega) hN.le
  have hp := phaseQ_admissible
  obtain rfl | rfl | rfl | rfl : j = 0 ∨ j = 1 ∨ j = 2 ∨ j = 3 := by omega
  · have hzero : wrap n N = 0 := by omega
    rw [h.period n N hN, hp.period n N hN, hzero, h.zero N hN, hp.zero N hN]
  · rw [h.quadrant1 n N hN (by omega), hp.quadrant1 n N hN (by omega)]
  · rw [h.quadrant2 n N hN hj, hp.quadrant2 n N hN hj]
  · rw [h.quadrant3 n N hN hj, hp.quadrant3 n N hN hj]

/-- An entry of `q` that is taken carries the sample of `q`. -/
theorem sample_of_taken {e : ℝ} {q : Quantizer} (h : Quantizer.Admissible e q) {D : Nat} {x : QuantEntry} {n N : ℤ}
    (hN : 0 < N) (hx : x ∈ quantEntries q D) (htaken : (x.admitted && x.isFor n N) = true) : x.sample = q n N := by
  obtain ⟨M, m, -, -, rfl⟩ := mem_quantEntries.1 hx
  obtain ⟨-, -, hnum, hden⟩ := QuantEntry.taken htaken
  rw [h.period n N hN, ← hnum, ← hden]

/-- Away from the quarter turns some entry of `q` is taken. -/
theorem exists_taken {e : ℝ} {q : Quantizer} (h : Quantizer.Admissible e q) {D : Nat} {n N : ℤ} (hN : 0 < N)
    (hD : N < D) (hquarter : 4 * wrap n N % N ≠ 0) :
    ∃ x ∈ quantEntries q D, (x.admitted && x.isFor n N) = true := by
  have h0 := wrap_nonneg n N hN
  have hlt := wrap_lt n N hN
  have hnum : ((wrap n N).toNat : ℤ) = wrap n N := Int.toNat_of_nonneg h0
  have hden : (N.toNat : ℤ) = N := Int.toNat_of_nonneg hN.le
  refine ⟨⟨wrap n N, N, q (wrap n N) N⟩, mem_quantEntries.2 ⟨N.toNat, (wrap n N).toNat, by omega, by omega, ?_⟩, ?_⟩
  · rw [hnum, hden]
  · obtain ⟨hc, hc', hs, hs'⟩ := h.range (wrap n N) N hN
    simp [QuantEntry.admitted, QuantEntry.isFor, hc, hc', hs, hs', hquarter]

theorem quantize_quantEntries {e : ℝ} {q : Quantizer} (h : Quantizer.Admissible e q) {D : Nat} {n N : ℤ} (hN : 0 < N)
    (hD : N < D) : quantize (quantEntries q D) n N = q n N := by
  by_cases hquarter : 4 * wrap n N % N = 0
  · rw [quantize_quadrant _ _ _ hquarter, h.eq_of_quarter hN hquarter]
  · obtain ⟨x, hx, htaken⟩ := exists_taken h hN hD hquarter
    unfold quantize
    cases hfind : (quantEntries q D).find? fun x => x.admitted && x.isFor n N with
    | none => exact absurd htaken (List.find?_eq_none.1 hfind x hx)
    | some y =>
      have hy : (y.admitted && y.isFor n N) = true :=
        List.find?_some (p := fun y : QuantEntry => y.admitted && y.isFor n N) hfind
      exact sample_of_taken h hN (List.mem_of_find?_eq_some hfind) hy

/-- Settles O25: the list of all samples of the quantizer at the denominators of a register. -/
theorem everyAdmissibleQuantizerIsTaken : Obligations.EveryAdmissibleQuantizerIsTaken := fun _ q h =>
  ⟨quantEntries q (2 ^ 31), fun _ _ hN hD => quantize_quantEntries h hN (by push_cast; exact hD)⟩

end Sys2Proof.Machine
end

section
/-!
The rules that relate entries of the timing table (spec/42_timing_table.md R107, R108), and the tables of any quantizer
(spec/40_quantizer.md R81, R85).
-/

namespace Sys2Proof.Machine

/-! The identity sample -/

theorem centredBin_half (N NSC : Int) : centredBin N NSC (NSC / 2) = 0 := by
  rw [centredBin, if_neg (lt_irrefl _), sub_self]

/-- Settles O34: the product of bin and timing offset is 0, and so are its index and its angle. -/
theorem timingIdentityAtZero : Obligations.TimingIdentityAtZero := by
  intro s hv hmax ht ht' hk hk' hzero
  have hpass := (checkTalkup_ok s).2 ⟨hv, ⟨ht, ht'⟩, ⟨hk, hk'⟩, hmax⟩
  have hprod : centredBin s.regs.fftN s.regs.nsc s.regs.a1 * s.regs.a0 = 0 := by
    obtain h | h := hzero
    · rw [h, mul_zero]
    · rw [h, centredBin_half, zero_mul]
  rw [exec_talkup_of_passed hv hpass, hprod, Int.zero_emod, quantizer_of_dvd s hv.1 (dvd_zero _)]
  rfl

/-! Opposite timing offsets -/

theorem tableIndex_neg (b t : Int) {N : Int} (hN : 0 < N) :
    tableIndex N b (-t) = wrap (N - tableIndex N b t) N := by
  refine eq_wrap_of_dvd (wrap_nonneg _ _ hN) (wrap_lt _ _ hN) ?_
  have hpos := dvd_sub_wrap (b * t) hN
  have hneg := dvd_sub_wrap (b * -t) hN
  have hsum : N - wrap (b * t) N - wrap (b * -t) N
      = N + (b * t - wrap (b * t) N) + (b * -t - wrap (b * -t) N) := by ring
  rw [tableIndex, tableIndex, hsum]
  exact dvd_add (dvd_add dvd_rfl hpos) hneg

/-- TALKUP ends with `STATUS = 0` only on a request that passes all its checks. -/
theorem passed_of_talkup_completes {s u : State} (h : exec .talkup s = .next u) (hstatus : u.regs.status = 0) :
    firstFailed (checkTalkup s) = none := by
  cases hc : firstFailed (checkTalkup s) with
  | none => rfl
  | some c =>
    cases h.symm.trans (ends_talkup_of_failed hc)
    exact absurd hstatus (statusWord_ne_zero (checks_cause _ (checkTalkup_cause s) hc))

/-- Only `-2^31` has no opposite among the 32-bit words. -/
theorem toInt_neg_of_gt {w : Word} (h : -2 ^ 31 < w.toInt) : (-w).toInt = -w.toInt := by
  have hlt := word_toInt_lt w
  rw [BitVec.toInt_neg, Int.bmod_eq_of_le] <;> omega

/-- (P-conj) of R84, of the default quantizer or of one that has it. -/
theorem quantizer_neg {s : State} {N : Int} (hN : 0 < N) (hprop : s.quant = [] ∨ Quantizer.Conj N s.quantizer)
    (n : Int) : s.quantizer (-n) N = ⟨(s.quantizer n N).cos, -(s.quantizer n N).sin⟩ := by
  have hconj : Quantizer.Conj N s.quantizer :=
    hprop.elim (fun hnone => quantizer_of_default hnone ▸ phaseQ_conj hN) id
  exact hconj n

/-- Settles O35: the two products are opposite, and so are the angles that are looked up. -/
theorem timingConjugateSymmetry : Obligations.TimingConjugateSymmetry := by
  refine ⟨fun N b t hN => tableIndex_neg b t hN, fun s u s' u' hregs _ hquant hprop hexec hexec' hstatus hstatus' => ?_⟩
  have hpass := passed_of_talkup_completes hexec hstatus
  have hpass' := passed_of_talkup_completes hexec' hstatus'
  obtain ⟨hv, ⟨ht, -⟩, -⟩ := (checkTalkup_ok s).1 hpass
  obtain ⟨hv', -⟩ := (checkTalkup_ok s').1 hpass'
  obtain rfl := Host.Outcome.next.inj ((exec_talkup_of_passed hv hpass).symm.trans hexec)
  obtain rfl := Host.Outcome.next.inj ((exec_talkup_of_passed hv' hpass').symm.trans hexec')
  have harg : s'.regs.a0 = -s.regs.a0 := by
    have hcp := word_toInt_lt s.regs.cpLen
    rw [Regs.cp] at ht
    rw [hregs]
    exact toInt_neg_of_gt (lt_of_lt_of_le (neg_lt_neg hcp) ht)
  have hsample : s'.quantizer (centredBin s'.regs.fftN s'.regs.nsc s'.regs.a1 * s'.regs.a0) s'.regs.fftN
      = ⟨(s.quantizer (centredBin s.regs.fftN s.regs.nsc s.regs.a1 * s.regs.a0) s.regs.fftN).cos,
        -(s.quantizer (centredBin s.regs.fftN s.regs.nsc s.regs.a1 * s.regs.a0) s.regs.fftN).sin⟩ := by
    rw [harg, mul_neg, ← quantizer_neg hv.1 hprop, State.quantizer, hquant, hregs]
    rfl
  have hsin := (toInt_quantizer_registers s (centredBin s.regs.fftN s.regs.nsc s.regs.a1 * s.regs.a0) hv.1).2
  have hsin' := (toInt_quantizer_registers s' (centredBin s'.regs.fftN s'.regs.nsc s'.regs.a1 * s'.regs.a0) hv'.1).2
  constructor
  · simp only [State.succeed_resCos, State.putSample_resCos, hsample]
  · simp only [State.succeed_resSin, State.putSample_resSin, hsin, hsin']
    rw [hsample]

/-! Tables of any quantizer -/

/-- Settles O39: the meanings with the quantizer of the platform are the instructions', and the two tables. -/
theorem tablesForAnyQuantizer : Obligations.TablesForAnyQuantizer := by
  refine ⟨fun s => ⟨rfl, rfl⟩, fun q s => ⟨fun hv hr => ?_, fun hv hr => ?_⟩⟩
  · obtain ⟨m, hexec, hentry, -⟩ := execTagenWith_table q hv hr
    exact ⟨_, hexec, hentry⟩
  · obtain ⟨m, hexec, hentry, -⟩ := execFogenWith_table q hv hr
    exact ⟨_, hexec, hentry⟩

end Sys2Proof.Machine
end

section
/-!
What a command leaves, as a function of the registers of its row (spec/30_encoding.md R62): one result, whatever the
rest of the state. The frame of the commands (R62) and the request registers (spec/44_nop_and_host_access.md R132).
-/

namespace Sys2Proof.Machine

/-! The result of a command -/

/-- How a command can end. -/
inductive CommandResult where
  /-- The error return (R150). -/
  | failed (c : Cause)
  /-- `STATUS` cleared, as by NOP. -/
  | done
  /-- An index, as by SCBIN. -/
  | index (i : Int)
  /-- A sample and an index, as by PQ and TALKUP. -/
  | sample (p : Sample) (i : Int)
  /-- Cell writes, as by TAGEN and FOGEN. -/
  | table (ws : List (Nat × Cell))

/-- The state that a result makes of a state. -/
def CommandResult.applyTo (e : CommandResult) (s : State) : State :=
  match e with
  | .failed c => s.raise c
  | .done => s.succeed
  | .index i => (s.putIndex i).succeed
  | .sample p i => ((s.putSample p).putIndex i).succeed
  | .table ws => { s.succeed with tm := TableMemory.writeAll s.tmInit ws s.tm }

/-- The results a command can have. -/
def CommandResult.IsOf (c : Command) : CommandResult → Prop
  | .failed e => e.ofCommand
  | .done => c = .nop
  | .index _ => c = .scbin
  | .sample _ _ => c = .pq ∨ c = .talkup
  | .table _ => c = .tagen ∨ c = .fogen

/-- `s'` agrees with `s` on all that R62 lets the command read, and on the open parameters. -/
structure SameOperands (c : Command) (s s' : State) : Prop where
  regs : ∀ i ∈ commandReads c, s'.regs.read i = s.regs.read i
  maxFft : s'.maxFft = s.maxFft
  quant : s'.quant = s.quant

theorem SameOperands.refl (c : Command) (s : State) : SameOperands c s s := ⟨fun _ _ => rfl, rfl, rfl⟩

namespace SameOperands

variable {c : Command} {s s' : State}

theorem quantizer (h : SameOperands c s s') : s'.quantizer = s.quantizer := congrArg quantize h.quant

theorem fftN (h : SameOperands c s s') (hc : 2 ∈ commandReads c) : s'.regs.fftN = s.regs.fftN :=
  congrArg BitVec.toInt (h.regs 2 hc)

theorem cp (h : SameOperands c s s') (hc : 3 ∈ commandReads c) : s'.regs.cp = s.regs.cp :=
  congrArg BitVec.toInt (h.regs 3 hc)

theorem nsc (h : SameOperands c s s') (hc : 4 ∈ commandReads c) : s'.regs.nsc = s.regs.nsc :=
  congrArg BitVec.toInt (h.regs 4 hc)

theorem a0 (h : SameOperands c s s') (hc : 5 ∈ commandReads c) : s'.regs.a0 = s.regs.a0 :=
  congrArg BitVec.toInt (h.regs 5 hc)

theorem a1 (h : SameOperands c s s') (hc : 6 ∈ commandReads c) : s'.regs.a1 = s.regs.a1 :=
  congrArg BitVec.toInt (h.regs 6 hc)

theorem d (h : SameOperands c s s') (hc : 7 ∈ commandReads c) : s'.regs.d = s.regs.d :=
  congrArg BitVec.toNat (h.regs 7 hc)

theorem capPairs (h : SameOperands c s s') (hc : 8 ∈ commandReads c) : s'.regs.capPairs = s.regs.capPairs :=
  congrArg BitVec.toNat (h.regs 8 hc)

/-! The checks of a command read the registers of its row alone. -/

theorem checkPq (h : SameOperands .pq s s') : checkPq s'.regs = checkPq s.regs := by
  rw [Machine.checkPq, Machine.checkPq, h.fftN (by decide)]

theorem checkScbin (h : SameOperands .scbin s s') : checkScbin s'.regs = checkScbin s.regs := by
  simp only [Machine.checkScbin, checkNsc]
  rw [h.fftN (by decide), h.nsc (by decide), h.a0 (by decide)]

theorem checkTalkup (h : SameOperands .talkup s s') : checkTalkup s' = checkTalkup s := by
  simp only [Machine.checkTalkup, checkTA, checkNsc, checkMax]
  rw [h.maxFft, h.fftN (by decide), h.cp (by decide), h.nsc (by decide), h.a0 (by decide), h.a1 (by decide)]

theorem checkTagen (h : SameOperands .tagen s s') : checkTagen s' = checkTagen s := by
  have hreq : reqTA s'.regs = reqTA s.regs := by rw [reqTA, reqTA, h.cp (by decide), h.nsc (by decide)]
  simp only [Machine.checkTagen, checkTA, checkNsc, checkMax, checkBuffer]
  rw [hreq, h.maxFft, h.fftN (by decide), h.cp (by decide), h.nsc (by decide), h.d (by decide), h.capPairs (by decide)]

theorem checkFogen (h : SameOperands .fogen s s') : checkFogen s'.regs = checkFogen s.regs := by
  have hreq : reqFO s'.regs = reqFO s.regs := by rw [reqFO, reqFO, h.fftN (by decide)]
  simp only [Machine.checkFogen, checkFO, checkBuffer]
  rw [hreq, h.fftN (by decide), h.d (by decide), h.capPairs (by decide)]

end SameOperands

/-! A command on a request that fails, and on one that passes -/

theorem ends_pq_of_failed {s : State} {c : Cause} (h : firstFailed (checkPq s.regs) = some c) :
    Ends .pq s (statusWord c) := by
  obtain ⟨d, hd, hexec⟩ | ⟨hpass, -⟩ := execPqWith_cases s.quantizer s
  · rw [h, Option.some.injEq] at hd
    rw [hd]
    exact hexec
  · rw [(checkPq_ok s.regs).2 hpass] at h
    contradiction

theorem exec_tagen_of_passed {s : State} {bins : List (Int × Int)} (h : firstFailed (checkTagen s) = none)
    (hbins : binTable s.regs.fftN s.regs.nsc = some bins)
    (hmem : ∀ k b, (k, b) ∈ bins ↔ bin s.regs.fftN s.regs.nsc k = some b) :
    exec .tagen s = .next (CommandResult.applyTo
      (.table (writesTA s.quantizer s.regs.fftN s.regs.cp s.regs.nsc s.regs.d bins)) s) := by
  obtain ⟨hv, hr⟩ := (checkTagen_ok s).1 h
  rw [exec, execTagen, execTagenWith, h, hbins]
  exact State.writeTable_eq _ s (writesTA_cells hv hr hmem)

theorem exec_fogen_of_passed {s : State} (h : firstFailed (checkFogen s.regs) = none) :
    exec .fogen s = .next (CommandResult.applyTo (.table (writesFO s.quantizer s.regs.fftN s.regs.d)) s) := by
  obtain ⟨-, hr⟩ := (checkFogen_ok s.regs).1 h
  rw [exec, execFogen, execFogenWith, h]
  exact State.writeTable_eq _ s (writesFO_cells hr)

/-- The error return of a command whose first failing check is `e`, in every state with the same operands. -/
theorem runCommand_failed_result {c : Command} {s : State} {e : Cause} (he : e.ofCommand)
    (h : ∀ s', SameOperands c s s' → Ends c.toInstr s' (statusWord e)) :
    ∃ r : CommandResult, r.IsOf c ∧ ∀ s', SameOperands c s s' → runCommand c s' = .next (r.applyTo s') :=
  ⟨.failed e, he, fun s' hs => (exec_toInstr c s').symm.trans (h s' hs)⟩

/-- A command reads the registers of its row alone: it has one result in all states that agree on them. -/
theorem runCommand_result (c : Command) (s : State) :
    ∃ r : CommandResult, r.IsOf c ∧ ∀ s', SameOperands c s s' → runCommand c s' = .next (r.applyTo s') := by
  cases c with
  | nop => exact ⟨.done, rfl, fun s' _ => rfl⟩
  | pq =>
    cases hc : firstFailed (checkPq s.regs) with
    | some e =>
      exact runCommand_failed_result (checks_cause _ (checkPq_cause _) hc) fun s' hs =>
        ends_pq_of_failed (hs.checkPq ▸ hc)
    | none =>
      refine ⟨.sample (s.quantizer s.regs.a0 s.regs.fftN) (wrap s.regs.a0 s.regs.fftN), .inl rfl, fun s' hs => ?_⟩
      have hN := (checkPq_ok _).1 (hs.checkPq ▸ hc)
      rw [← hs.quantizer, ← hs.a0 (by decide), ← hs.fftN (by decide)]
      exact exec_pq_of_pos hN
  | scbin =>
    cases hc : firstFailed (checkScbin s.regs) with
    | some e =>
      exact runCommand_failed_result (checks_cause _ (checkScbin_cause _) hc) fun s' hs =>
        ends_scbin_of_failed (hs.checkScbin ▸ hc)
    | none =>
      refine ⟨.index (centredBin s.regs.fftN s.regs.nsc s.regs.a0), rfl, fun s' hs => ?_⟩
      have hdom := (checkScbin_ok _).1 (hs.checkScbin ▸ hc)
      rw [← hs.fftN (by decide), ← hs.nsc (by decide), ← hs.a0 (by decide)]
      exact exec_scbin_of_domain hdom
  | talkup =>
    cases hc : firstFailed (checkTalkup s) with
    | some e =>
      exact runCommand_failed_result (checks_cause _ (checkTalkup_cause _) hc) fun s' hs =>
        ends_talkup_of_failed (hs.checkTalkup ▸ hc)
    | none =>
      refine ⟨.sample (s.quantizer (centredBin s.regs.fftN s.regs.nsc s.regs.a1 * s.regs.a0) s.regs.fftN)
        (centredBin s.regs.fftN s.regs.nsc s.regs.a1 * s.regs.a0 % s.regs.fftN), .inr rfl, fun s' hs => ?_⟩
      have hpass : firstFailed (checkTalkup s') = none := hs.checkTalkup ▸ hc
      rw [← hs.quantizer, ← hs.fftN (by decide), ← hs.nsc (by decide), ← hs.a0 (by decide), ← hs.a1 (by decide)]
      exact exec_talkup_of_passed ((checkTalkup_ok s').1 hpass).1 hpass
  | tagen =>
    cases hc : firstFailed (checkTagen s) with
    | some e =>
      exact runCommand_failed_result (checks_cause _ (checkTagen_cause _) hc) fun s' hs =>
        ends_tagen_of_failed (hs.checkTagen ▸ hc)
    | none =>
      obtain ⟨⟨-, -, -, hpos, heven, hle⟩, -⟩ := (checkTagen_ok s).1 hc
      obtain ⟨bins, hbins, hmem⟩ := binTable_of_valid _ _ heven hpos hle
      refine ⟨.table (writesTA s.quantizer s.regs.fftN s.regs.cp s.regs.nsc s.regs.d bins), .inl rfl, fun s' hs => ?_⟩
      rw [← hs.fftN (by decide), ← hs.nsc (by decide)] at hbins hmem
      rw [← hs.quantizer, ← hs.fftN (by decide), ← hs.cp (by decide), ← hs.nsc (by decide), ← hs.d (by decide)]
      exact exec_tagen_of_passed (hs.checkTagen ▸ hc) hbins hmem
  | fogen =>
    cases hc : firstFailed (checkFogen s.regs) with
    | some e =>
      exact runCommand_failed_result (checks_cause _ (checkFogen_cause _) hc) fun s' hs =>
        ends_fogen_of_failed (hs.checkFogen ▸ hc)
    | none =>
      refine ⟨.table (writesFO s.quantizer s.regs.fftN s.regs.d), .inr rfl, fun s' hs => ?_⟩
      rw [← hs.quantizer, ← hs.fftN (by decide), ← hs.d (by decide)]
      exact exec_fogen_of_passed (hs.checkFogen ▸ hc)

/-! What a result leaves as it was -/

/-- The registers a result writes, beside `STATUS`, by number. -/
def CommandResult.writes : CommandResult → List Nat
  | .index _ => [11]
  | .sample _ _ => [9, 10, 11]
  | _ => []

theorem Regs.read_withStatus (r : Regs) (w : Word) {i : Nat} (h : i ≠ 1) :
    ({ r with status := w } : Regs).read i = r.read i := by
  unfold Regs.read
  split <;> simp_all

theorem Regs.read_withIndex (r : Regs) (w : Word) {i : Nat} (h : i ≠ 11) :
    ({ r with resIdx := w } : Regs).read i = r.read i := by
  unfold Regs.read
  split <;> simp_all

theorem Regs.read_withSample (r : Regs) (v w : Word) {i : Nat} (hcos : i ≠ 9) (hsin : i ≠ 10) :
    ({ r with resCos := v, resSin := w } : Regs).read i = r.read i := by
  unfold Regs.read
  split <;> simp_all

namespace CommandResult

variable (e : CommandResult) (s : State)

theorem applyTo_read_other {i : Nat} (h : i ≠ 1) (hi : i ∉ e.writes) :
    (e.applyTo s).regs.read i = s.regs.read i := by
  have hstatus (r : Regs) (w : Word) := Regs.read_withStatus r w h
  cases e with
  | failed c => exact hstatus _ _
  | done => exact hstatus _ _
  | table ws => exact hstatus _ _
  | index j => exact (hstatus _ _).trans (Regs.read_withIndex _ _ (by simpa [writes] using hi))
  | sample p j =>
    obtain ⟨hcos, hsin, hidx⟩ : i ≠ 9 ∧ i ≠ 10 ∧ i ≠ 11 := by simpa [writes] using hi
    exact (hstatus _ _).trans ((Regs.read_withIndex _ _ hidx).trans (Regs.read_withSample _ _ _ hcos hsin))

/-- What a result writes it writes alike into all states. -/
theorem applyTo_read_writes (s' : State) {i : Nat} (hi : i ∈ e.writes) :
    (e.applyTo s').regs.read i = (e.applyTo s).regs.read i := by
  cases e with
  | failed c => contradiction
  | done => contradiction
  | table ws => contradiction
  | index j =>
    obtain rfl : i = 11 := by simpa [writes] using hi
    rfl
  | sample p j =>
    obtain rfl | rfl | rfl : i = 9 ∨ i = 10 ∨ i = 11 := by simpa [writes] using hi
    all_goals rfl

theorem applyTo_status (s' : State) : (e.applyTo s').regs.status = (e.applyTo s).regs.status := by
  cases e <;> rfl

/-- The number of a request or operand register is that of no result. -/
theorem not_mem_writes {i : Nat} (hi : i ≤ 8) : i ∉ e.writes := by
  cases e <;> simp [writes] <;> omega

variable {e} {c : Command}

/-- What a command does not write it keeps, and on success it writes all the registers of its row (R62). -/
theorem IsOf.writes_eq (h : e.IsOf c) :
    (e.writes = commandWrites c ∧ (e.applyTo s).regs.status = 0) ∨
      (e.writes = [] ∧ (e.applyTo s).regs.status ≠ 0) := by
  cases e with
  | failed x => exact .inr ⟨rfl, statusWord_ne_zero h⟩
  | done => exact .inl ⟨h ▸ rfl, rfl⟩
  | index i => exact .inl ⟨h ▸ rfl, rfl⟩
  | sample p i => obtain rfl | rfl := h <;> exact .inl ⟨rfl, rfl⟩
  | table ws => obtain rfl | rfl := h <;> exact .inl ⟨rfl, rfl⟩

theorem IsOf.writes_subset (h : e.IsOf c) {i : Nat} (hi : i ∈ e.writes) : i ∈ commandWrites c := by
  obtain ⟨heq, -⟩ | ⟨hnil, -⟩ := h.writes_eq State.reset
  · exact heq ▸ hi
  · rw [hnil] at hi
    contradiction

theorem IsOf.applyTo_tm (h : e.IsOf c) (htagen : c ≠ .tagen) (hfogen : c ≠ .fogen) : (e.applyTo s).tm = s.tm := by
  cases e with
  | table ws => exact absurd h (not_or.2 ⟨htagen, hfogen⟩)
  | failed x => rfl
  | done => rfl
  | index i => rfl
  | sample p i => rfl

end CommandResult

/-- `runCommand_result`, of the command as an instruction. -/
theorem exec_toInstr_result (c : Command) (s : State) :
    ∃ r : CommandResult, r.IsOf c ∧ ∀ s', SameOperands c s s' → exec c.toInstr s' = .next (r.applyTo s') := by
  simpa only [exec_toInstr] using runCommand_result c s

theorem commandReads_le {c : Command} {i : Nat} (h : i ∈ commandReads c) : i ≠ 1 ∧ i ≤ 8 := by
  cases c <;> simp [commandReads] at h <;> omega

/-! The frame of the commands -/

/-- A command keeps every register that the host can write (R62). -/
theorem command_keeps_request {c : Command} {s t : State} (h : exec c.toInstr s = .next t) (i : Nat)
    (hi : i ≠ 1 ∧ i ≤ 8) : t.regs.read i = s.regs.read i := by
  obtain ⟨e, -, hrun⟩ := exec_toInstr_result c s
  obtain rfl := Host.Outcome.next.inj ((hrun s (.refl c s)).symm.trans h)
  exact e.applyTo_read_other s hi.1 (e.not_mem_writes hi.2)

/-- Settles O48: each register is kept that the result does not write, and no result but a table writes a cell. -/
theorem commandFrame : Obligations.CommandFrame := by
  intro c s t h
  have hrequest := command_keeps_request h
  obtain ⟨e, hof, hrun⟩ := exec_toInstr_result c s
  obtain rfl := Host.Outcome.next.inj ((hrun s (.refl c s)).symm.trans h)
  have hkept (i : Nat) (h1 : i ≠ 1) (hi : i ∉ commandWrites c) : (e.applyTo s).regs.read i = s.regs.read i :=
    e.applyTo_read_other s h1 (mt hof.writes_subset hi)
  refine ⟨⟨hrequest 2 (by decide), hrequest 3 (by decide), hrequest 4 (by decide), hrequest 5 (by decide),
    hrequest 6 (by decide), hrequest 7 (by decide), hrequest 8 (by decide)⟩, ?_, fun hpq htalkup => ?_,
    fun hpq htalkup hscbin => ?_, hof.applyTo_tm s⟩
  · cases e <;> exact ⟨rfl, rfl, rfl, rfl, rfl, rfl, rfl⟩
  · have hi : 9 ∉ commandWrites c ∧ 10 ∉ commandWrites c := by cases c <;> simp_all [commandWrites]
    exact ⟨hkept 9 (by decide) hi.1, hkept 10 (by decide) hi.2⟩
  · have hi : 11 ∉ commandWrites c := by cases c <;> simp_all [commandWrites]
    exact hkept 11 (by decide) hi

/-- Settles O49: one result, applied to two states. -/
theorem operandsAreThoseOfTheTable : Obligations.OperandsAreThoseOfTheTable := by
  intro c s s' t t' hregs hmax hquant hinit htm h h'
  obtain ⟨e, hof, hrun⟩ := exec_toInstr_result c s
  obtain rfl := Host.Outcome.next.inj ((hrun s (.refl c s)).symm.trans h)
  obtain rfl := Host.Outcome.next.inj ((hrun s' ⟨hregs, hmax, hquant⟩).symm.trans h')
  refine ⟨e.applyTo_status s s', ?_, fun hstatus i hi => ?_, fun i h1 hi => e.applyTo_read_other s h1 ?_⟩
  · cases e with
    | table ws => exact congrArg₂ (TableMemory.writeAll · ws ·) hinit htm
    | failed x => exact htm
    | done => exact htm
    | index i => exact htm
    | sample p i => exact htm
  · obtain ⟨heq, -⟩ | ⟨-, hne⟩ := hof.writes_eq s
    · exact e.applyTo_read_writes s s' (heq ▸ hi)
    · exact absurd hstatus hne
  · obtain ⟨heq, hzero⟩ | ⟨hnil, -⟩ := hof.writes_eq s
    · exact heq ▸ hi.resolve_right (not_not.2 hzero)
    · exact hnil ▸ List.not_mem_nil

end Sys2Proof.Machine
end

section
/-!
How commands end (spec/60_exceptions.md R143, R150, R152), which cells they change (spec/20_memory.md R43, R46), and the
order of commands on disjoint buffers (R55).
-/

namespace Sys2Proof.Machine

/-! The end of a command -/

/-- Settles O45: every case of `exec_cases` but the unaligned access has a next state, a command by its result. -/
theorem everyInstructionCompletes : Obligations.EveryInstructionCompletes := by
  intro i s hwf
  obtain ⟨c, h⟩ | (h | h) | ⟨_, _, -, -, -, h⟩ | ⟨_, -, -, h⟩ | ⟨hbad, -⟩ := exec_cases i s
  · obtain ⟨e, -, hrun⟩ := runCommand_result c s
    exact ⟨_, h.trans (hrun s (.refl c s))⟩
  · exact ⟨_, h⟩
  · exact ⟨_, h⟩
  · exact ⟨_, h⟩
  · exact ⟨_, h⟩
  · rw [hwf] at hbad
    contradiction

/-- The fields of `STATUS` after the error return of a command (R12, R141). -/
theorem statusWord_fields {c : Cause} (h : c.ofCommand) :
    (statusCode (statusWord c) = 1 ∨ statusCode (statusWord c) = 2) ∧ (statusWord c).extractLsb' 4 4 = 0 ∧
    (statusWord c).extractLsb' 16 16 = 0 ∧ statusCause (statusWord c) ≠ 0 := by
  cases c <;> simp [Cause.ofCommand, Cause.code] at h <;> decide

/-- Settles O47: `STATUS` is 0, or that of an error return. -/
theorem statusAfterCommand : Obligations.StatusAfterCommand := by
  intro c s t h
  by_cases hzero : t.regs.status = 0
  · rw [hzero]
    decide
  · obtain ⟨e, he, rfl⟩ := runCommand_failed ((exec_toInstr c s).symm.trans h) hzero
    obtain ⟨hcode, hlow, hhigh, hcause⟩ := statusWord_fields he
    have hne : statusCode (statusWord e) ≠ 0 := by
      obtain hone | htwo := hcode
      · exact hone ▸ by decide
      · exact htwo ▸ by decide
    exact ⟨.inr hcode, hlow, hhigh, iff_of_false hcause hne⟩

/-! The request registers -/

theorem exec_rd {off : Offset} (halign : off.toNat % 4 = 0) (s : State) :
    exec (.rd off) s = .next { s with reads := s.reads ++ [s.regs.read (regNumber off)] } := by
  have haligned : Offset.aligned off = true := beq_iff_eq.2 halign
  rw [exec, execRd, haligned, if_neg Bool.noConfusion]

/-- Settles O43: the value is that of the register with the number of the offset. -/
theorem rdReturnsTheRegister : Obligations.RdReturnsTheRegister := by
  refine fun s off halign => ⟨_, exec_rd halign s, ?_, ?_, ?_, ?_, ?_, ?_, ?_, ?_, ?_, ?_, ?_, ?_, fun hres => ?_⟩
  iterate 12
    rintro rfl
    rfl
  · have hnumber : 12 ≤ regNumber off := (Nat.le_div_iff_mul_le (by decide)).2 hres
    exact Regs.read_reserved _ _ (.inr hnumber)

/-- Settles O44: the write is of a request register, which the command keeps and the read returns. -/
theorem requestReadsBack : Obligations.RequestReadsBack := by
  intro s t u off v c halign hlow hhigh hwrite hcommand
  have hcmd : off ≠ 0 := by
    rintro rfl
    exact absurd hlow (by decide)
  have hnumber : 2 ≤ regNumber off ∧ regNumber off ≤ 8 := by
    rw [regNumber]
    omega
  rw [exec_wr_register halign hcmd] at hwrite
  cases hwrite
  rw [exec_rd halign, command_keeps_request hcommand _ (by omega), Regs.read_write_same _ _ _ hnumber.1 hnumber.2]

/-! The cells a command changes -/

/-- A cell that the writes address ends with one value in every memory; any other is kept in every memory. -/
theorem TableMemory.read_writeAll_cases (ws : List (Nat × Cell)) (a : Nat) :
    (∃ w ∈ ws, w.1 = a ∧ ∀ init m, TableMemory.read init a (TableMemory.writeAll init ws m) = w.2) ∨
    ((∀ w ∈ ws, w.1 ≠ a) ∧
      ∀ init m, TableMemory.read init a (TableMemory.writeAll init ws m) = TableMemory.read init a m) := by
  by_cases h : ∃ w ∈ ws, w.1 = a
  · exact .inl (TableMemory.read_writeAll_mem ws a h)
  · have h : ∀ w ∈ ws, w.1 ≠ a := fun w hw heq => h ⟨w, hw, heq⟩
    exact .inr ⟨h, fun init m => TableMemory.read_writeAll_other init ws m a h⟩

/-- Settles O50: a cell that changes is that of a write, and the effect of a command bounds its writes. -/
theorem writesStayInTheBuffer : Obligations.WritesStayInTheBuffer := by
  intro c s t a h hchanged
  obtain ⟨r, ws, heffect, hrun⟩ := runCommand_effect c s.regs s.maxFft s.quant
  obtain rfl := Host.Outcome.next.inj ((hrun s rfl rfl rfl).symm.trans ((exec_toInstr c s).symm.trans h))
  obtain ⟨w, hw, rfl, hread⟩ | ⟨-, hkept⟩ := TableMemory.read_writeAll_cases ws a
  · obtain ⟨hlow, hhigh, hcell, hvalue⟩ := heffect.cells w hw
    exact ⟨hlow, hhigh, hcell, hread s.tmInit s.tm ▸ hvalue⟩
  · exact absurd (hkept s.tmInit s.tm) hchanged

/-- What an instruction does, in all states at once: it runs a command, or it changes registers and the list of values
read by the registers alone, or it is refused. -/
theorem exec_uniform (i : Instr) :
    (∃ c, ∀ s, exec i s = runCommand c s) ∨
    (∃ (f : Regs → Regs) (g : Regs → List Word → List Word),
      ∀ s, exec i s = .next { s with regs := f s.regs, reads := g s.regs s.reads }) ∨
    ∀ s, exec i s = .refused .unalignedAccess := by
  cases i with
  | nop => exact .inl ⟨.nop, fun _ => rfl⟩
  | pq => exact .inl ⟨.pq, fun _ => rfl⟩
  | scbin => exact .inl ⟨.scbin, fun _ => rfl⟩
  | talkup => exact .inl ⟨.talkup, fun _ => rfl⟩
  | tagen => exact .inl ⟨.tagen, fun _ => rfl⟩
  | fogen => exact .inl ⟨.fogen, fun _ => rfl⟩
  | wr off data =>
    by_cases halign : off.toNat % 4 = 0
    · by_cases hcmd : off = 0
      · subst hcmd
        cases hd : decodeCommand data with
        | ok c =>
          exact .inl ⟨c, fun s => (exec_wr_cmd_of_decode (decode_cmd32_of_ok hd) s).trans (exec_toInstr c s)⟩
        | error e =>
          have hends := exec_wr_cmd_of_error hd
          obtain ⟨-, rfl⟩ | ⟨-, rfl⟩ := decodeCommand_error hd
          · exact .inr (.inl ⟨fun r => { r with status := statusWord .badRsv }, fun _ l => l, hends⟩)
          · exact .inr (.inl ⟨fun r => { r with status := statusWord .badOpcode }, fun _ l => l, hends⟩)
      · exact .inr (.inl ⟨Regs.write (regNumber off) data, fun _ l => l, exec_wr_register halign hcmd data⟩)
    · exact .inr (.inr fun s => (exec_unaligned halign data s).1)
  | rd off =>
    by_cases halign : off.toNat % 4 = 0
    · exact .inr (.inl ⟨id, fun r l => l ++ [r.read (regNumber off)], exec_rd halign⟩)
    · exact .inr (.inr fun s => (exec_unaligned halign 0 s).2)

/-- Settles O51: a command makes the same writes whatever the memory, and no other instruction touches it. -/
theorem tableMemoryIsNeverRead : Obligations.TableMemoryIsNeverRead := by
  intro i s t init m h
  obtain ⟨c, hi⟩ | ⟨f, g, hi⟩ | hi := exec_uniform i <;> rw [hi] at h
  · obtain ⟨r, ws, -, hrun⟩ := runCommand_effect c s.regs s.maxFft s.quant
    obtain rfl := Host.Outcome.next.inj ((hrun s rfl rfl rfl).symm.trans h)
    refine ⟨_, (hi _).trans (hrun { s with tmInit := init, tm := m } rfl rfl rfl), fun a => ?_⟩
    obtain ⟨w, -, -, hread⟩ | ⟨-, hkept⟩ := TableMemory.read_writeAll_cases ws a
    · exact .inr ((hread init m).trans (hread s.tmInit s.tm).symm)
    · exact .inl ⟨hkept s.tmInit s.tm, hkept init m⟩
  · cases h
    exact ⟨m, hi _, fun a => .inl ⟨rfl, rfl⟩⟩
  · contradiction

/-! A command issued again -/

theorem runCommand_wf {c : Command} {s t : State} (hs : TableMemory.wf s.tmInit s.tm)
    (h : runCommand c s = .next t) : TableMemory.wf t.tmInit t.tm := by
  obtain ⟨r, ws, heffect, hrun⟩ := runCommand_effect c s.regs s.maxFft s.quant
  obtain rfl := Host.Outcome.next.inj ((hrun s rfl rfl rfl).symm.trans h)
  exact TableMemory.writeAll_wf _ _ _ (fun w hw => (heffect.cells w hw).2.2.1) hs

/-- The same writes again leave every cell as it is. -/
theorem TableMemory.read_writeAll_again (init : TableInit) (ws : List (Nat × Cell)) (m : TableMemory) (a : Nat) :
    TableMemory.read init a (TableMemory.writeAll init ws (TableMemory.writeAll init ws m))
      = TableMemory.read init a (TableMemory.writeAll init ws m) := by
  obtain ⟨w, -, -, hread⟩ | ⟨-, hkept⟩ := TableMemory.read_writeAll_cases ws a
  · rw [hread, hread]
  · exact hkept init _

theorem CommandResult.applyTo_again (e : CommandResult) (s : State)
    (hwf : TableMemory.wf (e.applyTo s).tmInit (e.applyTo s).tm)
    (hwf' : TableMemory.wf (e.applyTo (e.applyTo s)).tmInit (e.applyTo (e.applyTo s)).tm) :
    e.applyTo (e.applyTo s) = e.applyTo s := by
  cases e with
  | failed c => rfl
  | done => rfl
  | index i => rfl
  | sample p i => rfl
  | table ws =>
    have htm := TableMemory.eq_of_read_eq hwf' hwf (TableMemory.read_writeAll_again s.tmInit ws s.tm)
    exact congrArg (fun m => { s.succeed with tm := m }) htm

/-- A command leaves the operands of its row as they were. -/
theorem CommandResult.sameOperands_applyTo (e : CommandResult) (c : Command) (s : State) :
    SameOperands c s (e.applyTo s) where
  regs i hi := e.applyTo_read_other s (commandReads_le hi).1 (e.not_mem_writes (commandReads_le hi).2)
  maxFft := by cases e <;> rfl
  quant := by cases e <;> rfl

/-- Settles O52: the second run has the operands of the first, so its result, which is there already. -/
theorem commandAgainChangesNothing : Obligations.CommandAgainChangesNothing := by
  intro c s t hs h
  rw [exec_toInstr] at h ⊢
  obtain ⟨e, -, hrun⟩ := runCommand_result c s
  obtain rfl := Host.Outcome.next.inj ((hrun s (.refl c s)).symm.trans h)
  have hagain := hrun _ (e.sameOperands_applyTo c s)
  have hwf := runCommand_wf hs h
  rw [hagain, e.applyTo_again s hwf (runCommand_wf hwf hagain)]

/-! What a step leaves of the platform -/

/-- All but the registers addressed, table memory and the values read is the same. -/
structure SamePlatform (s t : State) : Prop where
  before : t.before = s.before
  after : t.after = s.after
  maxFft : t.maxFft = s.maxFft
  quant : t.quant = s.quant
  tmInit : t.tmInit = s.tmInit
  bus : t.bus = s.bus

theorem SamePlatform.instances {s t : State} (h : SamePlatform s t) :
    t.instances = ({ s with regs := t.regs } : State).instances := by
  rw [State.instances, State.instances, h.before, h.after]

theorem samePlatform_of_exec {i : Instr} {s t : State} (h : exec i s = .next t) : SamePlatform s t := by
  obtain ⟨c, hi⟩ | ⟨f, g, hi⟩ | hi := exec_uniform i <;> rw [hi] at h
  · obtain ⟨r, ws, -, hrun⟩ := runCommand_effect c s.regs s.maxFft s.quant
    cases (hrun s rfl rfl rfl).symm.trans h
    exact ⟨rfl, rfl, rfl, rfl, rfl, rfl⟩
  · cases h
    exact ⟨rfl, rfl, rfl, rfl, rfl, rfl⟩
  · contradiction

theorem samePlatform_of_answerUndecoded {e : DecodeError} {s t : State} (h : answerUndecoded e s = .next t) :
    SamePlatform s t := by
  cases e <;> cases h <;> exact ⟨rfl, rfl, rfl, rfl, rfl, rfl⟩

/-- Settles O13: every kind of action keeps the platform, and the block it reaches is the one it names. -/
theorem otherInstancesUntouched : Obligations.OtherInstancesUntouched := by
  intro s t h rest hbus hstep
  obtain ⟨hnil, -⟩ | ⟨h', rest', hbus', hact⟩ := step_cases s
  · rw [hbus] at hnil
    contradiction
  obtain ⟨rfl, rfl⟩ := List.cons.inj (hbus.symm.trans hbus')
  obtain ⟨-, href⟩ | ⟨u, hsel, hact⟩ := hact
  · rw [href] at hstep
    contradiction
  have hplatform : SamePlatform u t := by
    obtain ⟨-, hreset⟩ | ⟨-, i, -, -, hexec⟩ | ⟨-, e, -, -, hans⟩ := hact
    · cases hreset.symm.trans hstep
      exact ⟨rfl, rfl, rfl, rfl, rfl, rfl⟩
    · exact samePlatform_of_exec (hexec.symm.trans hstep)
    · exact samePlatform_of_answerUndecoded (hans.symm.trans hstep)
  obtain ⟨hall, hnum, -, hrest⟩ := State.select_eq_some hsel
  have hother (j : Nat) (hj : j ≠ h.target) : t.instances[j]? = s.instances[j]? := by
    rw [hplatform.instances, State.instances_other u _ j (hnum ▸ hj), hall]
    rfl
  refine ⟨?_, ?_, ?_, ?_, ?_, hother⟩
  · rw [hplatform.bus, hrest]
  · rw [hplatform.maxFft, hrest]
  · rw [hplatform.quant, hrest]
  · rw [hplatform.tmInit, hrest]
  · have hlen : t.instances.length = u.instances.length := by
      rw [hplatform.instances]
      simp [State.instances]
    rw [hlen, hall]
    rfl

end Sys2Proof.Machine
end

section
/-!
The order of commands (spec/20_memory.md R55): what the command of one block leaves for that of another.
-/

namespace Sys2Proof.Machine

theorem State.instances_withRegs (s : State) (r : Regs) :
    ({ s with regs := r } : State).instances = s.instances.set s.selected r := by
  simp [State.instances, State.selected]

/-- The writes of a command, made of any state with the registers `r0` and the open parameters of `s`. -/
def LeavesOn (c : Command) (s : State) (r0 r : Regs) (ws : List (Nat × Cell)) : Prop :=
  ∀ u : State, u.regs = r0 → u.maxFft = s.maxFft → u.quant = s.quant →
    runCommand c u = .next { u with regs := r, tm := TableMemory.writeAll u.tmInit ws u.tm }

theorem exists_leavesOn (c : Command) (s : State) (r0 : Regs) : ∃ r ws, Effect r0 r ws ∧ LeavesOn c s r0 r ws :=
  runCommand_effect c r0 s.maxFft s.quant

/-- A step that takes a command off the list, on the whole platform. -/
theorem step_command {s : State} {j : Nat} {c : Command} {rest : List HostStep} {r0 r : Regs}
    {ws : List (Nat × Cell)} (hbus : s.bus = ⟨j, .send (.cmd32 (encodeCommand c))⟩ :: rest)
    (hr : s.instances[j]? = some r0) (hrun : LeavesOn c s r0 r ws) :
    ∃ p, step s = .next p ∧ p.bus = rest ∧ p.instances = s.instances.set j r ∧ p.maxFft = s.maxFft ∧
      p.quant = s.quant ∧ p.tmInit = s.tmInit ∧ p.tm = TableMemory.writeAll s.tmInit ws s.tm := by
  obtain ⟨u, hsel, hregs⟩ := State.exists_select (s := { s with bus := rest }) hr
  obtain ⟨hall, rfl, -, hrest⟩ := State.select_eq_some hsel
  have hmax : u.maxFft = s.maxFft := by rw [hrest]
  have hquant : u.quant = s.quant := by rw [hrest]
  have hinit : u.tmInit = s.tmInit := by rw [hrest]
  have htm : u.tm = s.tm := by rw [hrest]
  have hstep := step_send hbus hsel ((decode_cmd32_eq_ok_iff _ c).2 rfl)
  rw [exec_toInstr, hrun u hregs hmax hquant] at hstep
  refine ⟨_, hstep, ?_, ?_, hmax, hquant, hinit, ?_⟩
  · rw [hrest]
  · exact (State.instances_withRegs u r).trans (by rw [hall]; rfl)
  · exact congrArg₂ (TableMemory.writeAll · ws ·) hinit htm

/-- Two steps that take the commands of two blocks off the list. -/
theorem step_two_commands {s : State} {i j : Nat} {c d : Command} {ri ri' rj rj' : Regs} {ws vs : List (Nat × Cell)}
    (hij : i ≠ j) (hi : s.instances[i]? = some ri) (hj : s.instances[j]? = some rj) (hc : LeavesOn c s ri ri' ws)
    (hd : LeavesOn d s rj rj' vs) :
    ∃ p t, step { s with bus :=
        [⟨i, .send (.cmd32 (encodeCommand c))⟩, ⟨j, .send (.cmd32 (encodeCommand d))⟩] } = .next p ∧
      step p = .next t ∧ t.instances = (s.instances.set i ri').set j rj' ∧
      t.tm = TableMemory.writeAll s.tmInit vs (TableMemory.writeAll s.tmInit ws s.tm) := by
  obtain ⟨p, hp, hpbus, hpall, hpmax, hpquant, hpinit, hptm⟩ := step_command (s := { s with bus :=
    [⟨i, .send (.cmd32 (encodeCommand c))⟩, ⟨j, .send (.cmd32 (encodeCommand d))⟩] }) rfl hi hc
  have hpj : p.instances[j]? = some rj := by
    rw [hpall, List.getElem?_set_ne hij]
    exact hj
  have hpd : LeavesOn d p rj rj' vs := fun u hu hmax hquant => hd u hu (hmax.trans hpmax) (hquant.trans hpquant)
  obtain ⟨t, ht, -, htall, -, -, -, httm⟩ := step_command hpbus hpj hpd
  refine ⟨p, t, hp, ht, ?_, ?_⟩
  · rw [htall, hpall]
    rfl
  · rw [httm, hpinit, hptm]

/-- Writes that share no cell leave the same cells in either order. -/
theorem TableMemory.read_writeAll_comm (init : TableInit) {ws vs : List (Nat × Cell)}
    (hdisj : ∀ w ∈ ws, ∀ v ∈ vs, w.1 ≠ v.1) (m : TableMemory) (a : Nat) :
    TableMemory.read init a (TableMemory.writeAll init vs (TableMemory.writeAll init ws m))
      = TableMemory.read init a (TableMemory.writeAll init ws (TableMemory.writeAll init vs m)) := by
  obtain ⟨w, hw, hwa, hread⟩ | ⟨-, hkept⟩ := TableMemory.read_writeAll_cases ws a <;>
    obtain ⟨v, hv, hva, hread'⟩ | ⟨-, hkept'⟩ := TableMemory.read_writeAll_cases vs a
  · exact absurd (hwa.trans hva.symm) (hdisj w hw v hv)
  · rw [hkept', hread, hread]
  · rw [hread', hkept, hread']
  · rw [hkept', hkept, hkept, hkept']

/-- Buffers that share no cell keep the writes of their commands apart. -/
theorem Effect.disjoint {r0 r r0' r' : Regs} {ws vs : List (Nat × Cell)} (h : Effect r0 r ws) (h' : Effect r0' r' vs)
    (hbuf : r0.d + 2 * r0.capPairs ≤ r0'.d ∨ r0'.d + 2 * r0'.capPairs ≤ r0.d) :
    ∀ w ∈ ws, ∀ v ∈ vs, w.1 ≠ v.1 := by
  intro w hw v hv
  obtain ⟨hlow, hhigh, -⟩ := h.cells w hw
  obtain ⟨hlow', hhigh', -⟩ := h'.cells v hv
  omega

/-- Settles O53: each command has one effect wherever it stands, on its own registers and its own buffer. -/
theorem disjointInstancesCommute : Obligations.DisjointInstancesCommute := by
  intro s i j c d ri rj hij hi hj hbuf
  obtain ⟨ri', ws, heffect, hc⟩ := exists_leavesOn c s ri
  obtain ⟨rj', vs, heffect', hd⟩ := exists_leavesOn d s rj
  obtain ⟨p, t, hp, ht, htall, httm⟩ := step_two_commands hij hi hj hc hd
  obtain ⟨q, u, hq, hu, huall, hutm⟩ := step_two_commands hij.symm hj hi hd hc
  refine ⟨p, t, q, u, hp, ht, hq, hu, ?_, fun a => ?_⟩
  · rw [htall, huall]
    exact List.set_comm _ _ hij
  · rw [httm, hutm]
    exact TableMemory.read_writeAll_comm s.tmInit (heffect.disjoint heffect' hbuf) s.tm a

end Sys2Proof.Machine
end
